-- ==== Sys2Proof/Word.lean ====
section
/-! DEFINITION. The word types of SHA1CORE (R7, R8): every value is unsigned and wraps. -/

namespace Sys2Proof

/-- R6, R7: a 32-bit unsigned value. -/
abbrev Word := BitVec 32

/-- R7: an 8-bit unsigned value. -/
abbrev Byte := BitVec 8

end Sys2Proof
end

