-- ==== Sys2Proof/Config.lean ====
section
/-! DEFINITION. The fixed parameters of R6, and the values the model names where the spec gives none. -/

namespace Sys2Proof.Config

/-- R30, R32: the size of the register window, and the unit `BASE` is a multiple of. -/
def windowBytes : Nat := 0x100

/-- R33: the one legal access size, in bytes. -/
def accessBytes : Nat := 4

/-- R6: the size of the block buffer in bytes. -/
def blockBytes : Nat := 64

/-- R6: the rounds of one compression step. -/
def rounds : Nat := 80

/-- What a block-buffer address that memory does not list reads as.
After INIT it is R62's 0x00. Before INIT the spec gives the buffer no value (R26), and no rule reads it.
DESIGN CHOICE (log 9), unsafe. -/
def unlistedByte : Byte := 0x00

/-- The raw bits the model holds in H, CNTLO and CNTHI between hardware reset and INIT.
The spec gives these registers no value (R26, R28), and no rule reads them there.
DESIGN CHOICE (log 1), unsafe. -/
def unsetWord : Word := 0x00000000

/-- The `BASE` of `State.reset`, in units of `windowBytes`. `BASE` is OPEN (R6, D2): statements hold for every
value of the field. DESIGN CHOICE (log 7), unsafe. -/
def resetBaseIndex : Nat := 0

end Sys2Proof.Config
end

