-- ==== Sys2Proof/Syntax.lean ====
section
/-! DEFINITION. What the host can ask of the block: bus accesses, the eleven instructions of
spec/opcode_table.json, the events between accesses, and the assembler's lines (R55 to R58). -/

namespace Sys2Proof

/-- One row of spec/opcode_table.json each: the command words (R48) and the mapped reads (R53). -/
inductive Instr where
  /-- R62: start a new message. -/
  | init
  /-- R63: absorb the message byte `x`, the command word's bits [15:8] (R50). -/
  | update (x : Byte)
  /-- R66: pad, append the length, compress, and make the digest readable. -/
  | final
  /-- R90 -/
  | rdStatus
  /-- R91 -/
  | rdCountLo
  /-- R92 -/
  | rdCountHi
  /-- R93 -/
  | rdDigest0
  /-- R94 -/
  | rdDigest1
  /-- R95 -/
  | rdDigest2
  /-- R96 -/
  | rdDigest3
  /-- R97 -/
  | rdDigest4
deriving DecidableEq, Repr

/-- One host access on the bus (R30, R33). `addr` is a byte address of the host's bus and `size` is the access
size in bytes, any number: R33 says what every size but 4 does. -/
inductive Access where
  /-- A write of `value`. -/
  | write (addr size : Nat) (value : Word)
  /-- A read. -/
  | read (addr size : Nat)
deriving DecidableEq, Repr

/-- What happens at the block's boundary, one thing at a time (R41). -/
inductive HostEvent where
  /-- A host access, performed whole (R39). -/
  | access (a : Access)
  /-- The platform asserts hardware reset between two accesses (R115). -/
  | reset
  /-- The platform asserts hardware reset during the access `a`: the spec says nothing of such a run (R114, I14). -/
  | resetDuring (a : Access)
  /-- A second master's access `a` comes between one message's accesses: the spec says nothing of such a run
  (R29, R114, I15). -/
  | interleaved (a : Access)
deriving DecidableEq, Repr

/-- The readable registers, by the names R55 gives them. -/
inductive ReadReg where
  | status
  | countLo
  | countHi
  | digest0
  | digest1
  | digest2
  | digest3
  | digest4
deriving DecidableEq, Repr

/-- One line of assembly (R55) or a pseudo-instruction (R56 to R58). Operands are the numbers as written, so
that an operand no encoding can express is a term (WellFormed.lean refuses it). -/
inductive AsmLine where
  /-- R55: `INIT`. -/
  | init
  /-- R55: `UPDATE b`. -/
  | update (b : Nat)
  /-- R55: `FINAL`. -/
  | final
  /-- R55: `RD STATUS` to `RD DIGEST4`. -/
  | rd (r : ReadReg)
  /-- R55: `WR off, v`, a raw 32-bit write. -/
  | wrRaw (off v : Nat)
  /-- R55: `RD off`, a raw 32-bit read. -/
  | rdRaw (off : Nat)
  /-- R56: `UPDATES s`. -/
  | updates (s : List Nat)
  /-- R57: `HASH s`. -/
  | hash (s : List Nat)
  /-- R58: `RDDIGEST`. -/
  | rdDigest
deriving DecidableEq, Repr

end Sys2Proof
end

