-- ==== Sys2Proof/WellFormed.lean ====
section
/-! DEFINITION. Which terms an encoding can express. -/

namespace Sys2Proof

/-- Every `Instr` is well formed: the one operand is UPDATE's byte, 8 bits by its type (R50). -/
def Instr.wf (i : Instr) : Bool :=
  match i with
  | .init => true
  | .update _ => true
  | .final => true
  | .rdStatus => true
  | .rdCountLo => true
  | .rdCountHi => true
  | .rdDigest0 => true
  | .rdDigest1 => true
  | .rdDigest2 => true
  | .rdDigest3 => true
  | .rdDigest4 => true

/-- R55: `0 <= b <= 255`; an encoding cannot express a larger operand. -/
def byteOperand (b : Nat) : Bool := b ≤ 255

/-- R52: an offset inside the window has the bits [7:0] the block decodes. That WR and RD reject others is DESIGN CHOICE
(log 14). -/
def offsetOperand (off : Nat) : Bool := off < Config.windowBytes

/-- R7: a value a 32-bit write can carry. That WR rejects others is DESIGN CHOICE (log 14). -/
def wordOperand (v : Nat) : Bool := v < 2 ^ 32

/-- R55 to R58: the lines an assembler accepts. -/
def AsmLine.wf (l : AsmLine) : Bool :=
  match l with
  | .init => true
  | .update b => byteOperand b
  | .final => true
  | .rd _ => true
  | .wrRaw off v => offsetOperand off && wordOperand v
  | .rdRaw off => offsetOperand off
  | .updates s => s.all byteOperand
  | .hash s => s.all byteOperand
  | .rdDigest => true

end Sys2Proof
end

