-- ==== Sys2Proof/Decode.lean ====
section
/-! DEFINITION. Decoding a host access (R48 to R54), the encoder, and the opcode table. -/

namespace Sys2Proof

/-- R32, R52: the offset bits [7:0] the block decodes. `BASE` is a multiple of 0x100, so they are the low eight
bits of the bus address. -/
def Access.off (a : Access) : BitVec 8 :=
  match a with
  | .write addr _ _ => BitVec.ofNat 8 addr
  | .read addr _ => BitVec.ofNat 8 addr

/-- The access's byte address on the host's bus. -/
def Access.addr (a : Access) : Nat :=
  match a with
  | .write addr _ _ => addr
  | .read addr _ => addr

/-- The access's size in bytes. -/
def Access.size (a : Access) : Nat :=
  match a with
  | .write _ size _ => size
  | .read _ size => size

/-- R30, R32: the access falls in the 0x100-byte window at `BASE = 0x100 * baseIndex`. Its first address decides:
DESIGN CHOICE (log 11), unsafe at the window's edge. -/
def Access.selects (baseIndex : Nat) (a : Access) : Bool :=
  a.addr / Config.windowBytes == baseIndex

/-- What an access that is not performed returns: a read returns 0, a write returns nothing (R99). -/
def Access.errorData (a : Access) : Option Word :=
  match a with
  | .write _ _ _ => none
  | .read _ _ => some 0

/-- R48: OP, the command word's bits [7:0]. -/
def cmdOp (v : Word) : BitVec 8 := v.extractLsb' 0 8

/-- R48, R50: DATA, the command word's bits [15:8]. -/
def cmdData (v : Word) : Byte := v.extractLsb' 8 8

/-- R48: RSV, the command word's bits [31:16]. -/
def cmdRsv (v : Word) : BitVec 16 := v.extractLsb' 16 16

/-- R51: the word is a command. -/
def legal (v : Word) : Bool :=
  (cmdOp v == 0x01 && v.extractLsb' 8 24 == 0) || (cmdOp v == 0x02 && cmdRsv v == 0)
    || (cmdOp v == 0x03 && v.extractLsb' 8 24 == 0)

/-- Why an access is no instruction: the two decode errors of R106, in its order. -/
inductive Reject where
  /-- R52, R98: `BadAccess`, which raises `Err(4)`. -/
  | badAccess
  /-- R51: a CMD write of a word that is not legal, which raises `Err(3)`. -/
  | illegalCmd
deriving DecidableEq, Repr

/-- R49, R51: the command a word written to CMD stands for. -/
def decodeCommand (v : Word) : Except Reject Instr :=
  if legal v then
    if cmdOp v == 0x01 then .ok .init
    else if cmdOp v == 0x02 then .ok (.update (cmdData v))
    else .ok .final
  else .error .illegalCmd

/-- R53: the read at an offset. -/
def decodeRead (off : BitVec 8) : Except Reject Instr :=
  if off == 0x04 then .ok .rdStatus
  else if off == 0x08 then .ok .rdCountLo
  else if off == 0x0C then .ok .rdCountHi
  else if off == 0x10 then .ok .rdDigest0
  else if off == 0x14 then .ok .rdDigest1
  else if off == 0x18 then .ok .rdDigest2
  else if off == 0x1C then .ok .rdDigest3
  else if off == 0x20 then .ok .rdDigest4
  else .error .badAccess

/-- R33: a single 32-bit access at an offset that is a multiple of 4. -/
def Access.wellShaped (a : Access) : Bool :=
  a.size == Config.accessBytes && a.off.extractLsb' 0 2 == 0

/-- R52: every access of the window is one instruction or is rejected by name. -/
def decode (a : Access) : Except Reject Instr :=
  if a.wellShaped then
    match a with
    | .write _ _ v => if a.off == 0x00 then decodeCommand v else .error .badAccess
    | .read _ _ => decodeRead a.off
  else .error .badAccess

/-- The command word (R49) of a command, and nothing for a read. -/
def commandWord (i : Instr) : Option Word :=
  match i with
  | .init => some 0x00000001
  | .update x => some (x.setWidth 32 <<< 8 ||| 0x00000002)
  | .final => some 0x00000003
  | .rdStatus => none
  | .rdCountLo => none
  | .rdCountHi => none
  | .rdDigest0 => none
  | .rdDigest1 => none
  | .rdDigest2 => none
  | .rdDigest3 => none
  | .rdDigest4 => none

/-- R32: the offset at which the host issues an instruction. -/
def Instr.offset (i : Instr) : Nat :=
  match i with
  | .init => 0x00
  | .update _ => 0x00
  | .final => 0x00
  | .rdStatus => 0x04
  | .rdCountLo => 0x08
  | .rdCountHi => 0x0C
  | .rdDigest0 => 0x10
  | .rdDigest1 => 0x14
  | .rdDigest2 => 0x18
  | .rdDigest3 => 0x1C
  | .rdDigest4 => 0x20

/-- R48, R53: the access that issues an instruction to the block whose `BASE` is `0x100 * baseIndex`. -/
def encode (baseIndex : Nat) (i : Instr) : Access :=
  match commandWord i with
  | some v => .write (Config.windowBytes * baseIndex + i.offset) Config.accessBytes v
  | none => .read (Config.windowBytes * baseIndex + i.offset) Config.accessBytes

/-- The two formats of spec/opcode_table.json (R53). -/
inductive RowFormat where
  /-- A 32-bit write to offset 0x00; match and mask apply to the word. -/
  | cmd
  /-- A 32-bit read; match and mask apply to the offset bits [7:0]. -/
  | rd
deriving DecidableEq, Repr

/-- A row of spec/opcode_table.json. -/
structure OpcodeRow where
  mnemonic : String
  format : RowFormat
  pattern : Word
  mask : Word
deriving DecidableEq, Repr

/-- spec/opcode_table.json, row for row. -/
def opcodeTable : List OpcodeRow :=
  [ ⟨"INIT", .cmd, 0x00000001, 0xFFFFFFFF⟩,
    ⟨"UPDATE", .cmd, 0x00000002, 0xFFFF00FF⟩,
    ⟨"FINAL", .cmd, 0x00000003, 0xFFFFFFFF⟩,
    ⟨"RD_STATUS", .rd, 0x04, 0xFF⟩,
    ⟨"RD_COUNT_LO", .rd, 0x08, 0xFF⟩,
    ⟨"RD_COUNT_HI", .rd, 0x0C, 0xFF⟩,
    ⟨"RD_DIGEST0", .rd, 0x10, 0xFF⟩,
    ⟨"RD_DIGEST1", .rd, 0x14, 0xFF⟩,
    ⟨"RD_DIGEST2", .rd, 0x18, 0xFF⟩,
    ⟨"RD_DIGEST3", .rd, 0x1C, 0xFF⟩,
    ⟨"RD_DIGEST4", .rd, 0x20, 0xFF⟩ ]

/-- R53: whether a row matches a 32-bit aligned access. -/
def OpcodeRow.matchesAccess (r : OpcodeRow) (a : Access) : Bool :=
  match r.format, a with
  | .cmd, .write _ _ v => a.off == 0x00 && v &&& r.mask == r.pattern
  | .rd, .read _ _ => a.off.setWidth 32 &&& r.mask == r.pattern
  | .cmd, .read _ _ => false
  | .rd, .write _ _ _ => false

/-- The mnemonic of an instruction, as spec/opcode_table.json spells it. -/
def Instr.mnemonic (i : Instr) : String :=
  match i with
  | .init => "INIT"
  | .update _ => "UPDATE"
  | .final => "FINAL"
  | .rdStatus => "RD_STATUS"
  | .rdCountLo => "RD_COUNT_LO"
  | .rdCountHi => "RD_COUNT_HI"
  | .rdDigest0 => "RD_DIGEST0"
  | .rdDigest1 => "RD_DIGEST1"
  | .rdDigest2 => "RD_DIGEST2"
  | .rdDigest3 => "RD_DIGEST3"
  | .rdDigest4 => "RD_DIGEST4"

/-- The access that a table word stands for. A row of at most 8 bits is an `RD` row, whose word is the offset; a
longer one is a `CMD` row, whose word is the word written to CMD (R53). DESIGN CHOICE (log 15), safe. -/
def tableAccess (baseIndex nbits w : Nat) : Access :=
  if nbits ≤ 8 then .read (Config.windowBytes * baseIndex + w % Config.windowBytes) Config.accessBytes
  else .write (Config.windowBytes * baseIndex) Config.accessBytes (BitVec.ofNat 32 w)

/-- The instruction the decoder reads from a table word. -/
def decodeTableWord (nbits w : Nat) : Option Instr :=
  match decode (tableAccess 0 nbits w) with
  | .ok i => some i
  | .error _ => none

end Sys2Proof
end

