-- ==== Sys2Proof/Machine/State.lean ====
section
/-! DEFINITION. The state of one SHA1CORE block, the reasons a step can stop, and the state after reset. -/

namespace Sys2Proof.Machine

/-- R20: the protocol position. The register is 2 bits wide; the value 3 is never held and has no constructor
(log 16). -/
inductive Phase where
  /-- 0: no message; H, BLK, CNTLO and CNTHI have no value (R26). -/
  | uninit
  /-- 1: a message is open. -/
  | absorbing
  /-- 2: the digest is readable. -/
  | done
deriving DecidableEq, Repr

/-- R100: why an access raised `Err`. -/
inductive ErrCause where
  /-- 1, R101 -/
  | cmdBeforeInit
  /-- 2, R102 -/
  | cmdAfterFinal
  /-- 3, R103 -/
  | illegalCmd
  /-- 4, R104 -/
  | badAccess
  /-- 5, R105 -/
  | readNoValue
deriving DecidableEq, Repr

/-- R14: the chaining state H[0..4]. -/
structure Chaining where
  h0 : Word
  h1 : Word
  h2 : Word
  h3 : Word
  h4 : Word
deriving DecidableEq, Repr

/-- R31: the block buffer's bytes, in the canonical form of `Memory.wf` (Ops.lean). -/
abbrev Memory := List Host.Cell

/-- No step of SHA1CORE ends in a fault. R12: "The hardware itself never stops: after an error it ignores the
offending access and keeps working". An access that raises `Err` takes a next state, whose `err`, `errCause` and
`raised` record the fault of R110 (log 2). -/
inductive Fault where
deriving DecidableEq, Repr

/-- Why a step gives no meaning. -/
inductive Refusal where
  /-- Raised by an arm of `exec` whose instruction has no meaning yet; no arm is left so. Safe. -/
  | notModelled (mnemonic : String)
  /-- Raised by the step on `HostEvent.resetDuring`: the spec says nothing of a hardware reset during an access
  (R114, R122, I14: treatment `refuse`). Safe. -/
  | resetDuringAccess
  /-- Raised by the step on `HostEvent.interleaved`: the spec says nothing of two masters interleaving accesses on
  one block (R29, R114, R122, I15: treatment `refuse`). Safe. -/
  | interleavedMaster
deriving DecidableEq, Repr

/-- R13, with the model-side state of R12 and R27, the parameter BASE (R6) and what the host does next. -/
structure State where
  /-- R14: H[0..4]. -/
  h : Chaining
  /-- R15: BLK[0..63]. -/
  blk : Memory
  /-- R16: CNTLO. -/
  cntLo : Word
  /-- R17: CNTHI. -/
  cntHi : Word
  /-- R20: PHASE. -/
  phase : Phase
  /-- R21: ERR, sticky. -/
  err : Bool
  /-- R22: ERRCAUSE, the code (R100) of the first error since reset. -/
  errCause : BitVec 3
  /-- R27: the index of the next access in the host's access sequence. -/
  pc : Nat
  /-- R12: the value the latest access returned, none for a write. -/
  rdata : Option Word
  /-- R12, R110: the fault of the latest access, none where it was performed. -/
  raised : Option ErrCause
  /-- R6, R32: BASE / 0x100, a parameter no step writes. -/
  baseIndex : Nat
  /-- R41: what the host and the platform do next, oldest first. -/
  host : List HostEvent
deriving DecidableEq, Repr

/-- What a meaning or a step answers. -/
abbrev Result := Host.Outcome State Fault Refusal

/-- R28, R115: the state after hardware reset, with no access issued yet. H, BLK, CNTLO and CNTHI have no value
in the spec; the raw bits here are the model's (log 1), and `State.chaining?` and its fellows show them as none. -/
def State.reset : State where
  h := ⟨Config.unsetWord, Config.unsetWord, Config.unsetWord, Config.unsetWord, Config.unsetWord⟩
  blk := []
  cntLo := Config.unsetWord
  cntHi := Config.unsetWord
  phase := .uninit
  err := false
  errCause := 0
  pc := 0
  rdata := none
  raised := none
  baseIndex := Config.resetBaseIndex
  host := []

end Sys2Proof.Machine
end

