-- ==== Sys2Proof/Machine/Operands.lean ====
section
/-! DEFINITION. Rotation, big-endian packing and the forms operands take on their way in and out (R9, R10, R35 to
R37, R69). -/

namespace Sys2Proof.Machine

/-- R9: the circular left rotation, used for n = 1, 5 and 30. -/
def rotl (x : Word) (n : Nat) : Word := (x <<< n) ||| (x >>> (32 - n))

/-- R10: four bytes as one word, the first byte most significant. -/
def be32 (b0 b1 b2 b3 : Byte) : Word :=
  (b0.setWidth 32 <<< 24) ||| (b1.setWidth 32 <<< 16) ||| (b2.setWidth 32 <<< 8) ||| b3.setWidth 32

/-- R10: the four bytes of a word, the most significant first. -/
def beBytes (w : Word) : List Byte :=
  [w.extractLsb' 24 8, w.extractLsb' 16 8, w.extractLsb' 8 8, w.extractLsb' 0 8]

/-- R69: the high word of the bit length. -/
def lengthHi (cntHi cntLo : Word) : Word := (cntHi <<< 3) ||| (cntLo >>> 29)

/-- R69: the low word of the bit length. -/
def lengthLo (cntLo : Word) : Word := cntLo <<< 3

/-- R14: the five words in order. -/
def Chaining.words (c : Chaining) : List Word := [c.h0, c.h1, c.h2, c.h3, c.h4]

/-- R37: the 20 digest bytes, word by word, each most significant byte first. -/
def Chaining.digestBytes (c : Chaining) : List Byte := c.words.flatMap beBytes

end Sys2Proof.Machine
end

