-- ==== Sys2Proof/Machine/Compress.lean ====
section
/-! DEFINITION. The compression step (R75 to R88), a pure function of a chaining state and 64 bytes. -/

namespace Sys2Proof.Machine

/-- R24: the working variables. -/
structure Working where
  a : Word
  b : Word
  c : Word
  d : Word
  e : Word
deriving DecidableEq, Repr

/-- R24: the 16-word message schedule. -/
abbrev Schedule := Vector Word 16

/-- The schedule slot `t mod 16`. -/
def Schedule.slot (w : Schedule) (t : Nat) : Word := w[t % 16]'(Nat.mod_lt t (by decide))

/-- R76: the block's bytes as sixteen big-endian words. -/
def unpack (block : Nat → Byte) : Schedule :=
  Vector.ofFn fun i : Fin 16 =>
    be32 (block (4 * i)) (block (4 * i + 1)) (block (4 * i + 2)) (block (4 * i + 3))

/-- R77: the working variables start as the chaining words. -/
def workingOf (h : Chaining) : Working := ⟨h.h0, h.h1, h.h2, h.h3, h.h4⟩

/-- R78: the schedule step of round `t`; none for t <= 15. All four slots are read before one is written. -/
def scheduleStep (w : Schedule) (t : Nat) : Schedule :=
  if 16 ≤ t then
    w.set (t % 16) (rotl (w.slot (t - 3) ^^^ w.slot (t - 8) ^^^ w.slot (t - 14) ^^^ w.slot t) 1)
      (Nat.mod_lt t (by decide))
  else w

/-- R79: choose. -/
def choose (b c d : Word) : Word := (b &&& c) ||| (~~~b &&& d)

/-- R80, R82: parity. -/
def parity (b c d : Word) : Word := b ^^^ c ^^^ d

/-- R81: majority. -/
def majority (b c d : Word) : Word := (b &&& c) ||| (b &&& d) ||| (c &&& d)

/-- R79 to R82: the round function of round `t`. -/
def roundFunction (t : Nat) (b c d : Word) : Word :=
  if t ≤ 19 then choose b c d
  else if t ≤ 39 then parity b c d
  else if t ≤ 59 then majority b c d
  else parity b c d

/-- R83: the constant of round `t`. -/
def roundConstant (t : Nat) : Word :=
  if t ≤ 19 then 0x5A827999
  else if t ≤ 39 then 0x6ED9EBA1
  else if t ≤ 59 then 0x8F1BBCDC
  else 0xCA62C1D6

/-- R84: the round update with the schedule word `w`. -/
def roundUpdate (v : Working) (w : Word) (t : Nat) : Working where
  a := rotl v.a 5 + v.e + w + roundFunction t v.b v.c v.d + roundConstant t
  b := v.a
  c := rotl v.b 30
  d := v.c
  e := v.d

/-- R78, R84: round `t`, the schedule step before the update. -/
def compressRound (p : Schedule × Working) (t : Nat) : Schedule × Working :=
  let w := scheduleStep p.1 t
  (w, roundUpdate p.2 (w.slot t) t)

/-- R85: the input chaining state plus the working variables. -/
def feedForward (h : Chaining) (v : Working) : Chaining :=
  ⟨h.h0 + v.a, h.h1 + v.b, h.h2 + v.c, h.h3 + v.d, h.h4 + v.e⟩

/-- R75, R86: the next chaining state. Only `block 0` to `block 63` are read. (Irreducible, so that no unification
runs the 80 rounds; the kernel evaluates it all the same.) -/
@[irreducible] def compress (h : Chaining) (block : Nat → Byte) : Chaining :=
  feedForward h ((List.range Config.rounds).foldl compressRound (unpack block, workingOf h)).2

end Sys2Proof.Machine
end

