-- ==== Sys2Proof/Machine/Flags.lean ====
section
/-! DEFINITION. The codes of PHASE and ERRCAUSE, and the STATUS register (R20, R23, R100). -/

namespace Sys2Proof.Machine

/-- R20: the code PHASE shows in STATUS. -/
def Phase.code (p : Phase) : BitVec 2 :=
  match p with
  | .uninit => 0
  | .absorbing => 1
  | .done => 2

/-- R100: the code ERRCAUSE holds. -/
def ErrCause.code (c : ErrCause) : BitVec 3 :=
  match c with
  | .cmdBeforeInit => 1
  | .cmdAfterFinal => 2
  | .illegalCmd => 3
  | .badAccess => 4
  | .readNoValue => 5

/-- R23: `STATUS = zext_32({ERRCAUSE, 0b00000, ERR, PHASE})`. -/
def State.status (s : State) : Word :=
  (s.errCause ++ (0 : BitVec 5) ++ BitVec.ofBool s.err ++ s.phase.code).setWidth 32

end Sys2Proof.Machine
end

