-- ==== Sys2Proof/Machine/Ops.lean ====
section
/-! DEFINITION. The named operations over the block buffer and the registers: MemRead and MemWrite (R11, R31), the
counter (R46), the outcome of an access (R12), raising an error (R99), and hardware reset (R115). -/

namespace Sys2Proof.Machine

/-- The canonical form of the block buffer: addresses strictly rising and below 64 (R31), and no entry equal to
what an unlisted address reads as. -/
def Memory.wf (m : Memory) : Bool :=
  m.all (fun c => decide (c.1 < Config.blockBytes) && c.2 != Config.unlistedByte)
    && decide (m.Pairwise fun c d => c.1 < d.1)

/-- R11: `MemRead(i, 1)`. -/
def Memory.read (m : Memory) (i : Nat) : Byte :=
  match m with
  | [] => Config.unlistedByte
  | c :: rest => if c.1 = i then c.2 else Memory.read rest i

/-- A cell in front of a memory, left out where it says what an unlisted address reads as. -/
def Memory.cons (i : Nat) (v : Byte) (m : Memory) : Memory :=
  if v = Config.unlistedByte then m else (i, v) :: m

/-- R11: `MemWrite(i, 1, v)`. No rule forms an address outside 0..63 (R31, log 10). -/
def Memory.write (m : Memory) (i : Nat) (v : Byte) : Memory :=
  match m with
  | [] => Memory.cons i v []
  | c :: rest =>
    if i < c.1 then Memory.cons i v (c :: rest)
    else if i = c.1 then Memory.cons i v rest
    else c :: Memory.write rest i v

/-- `for j in 0..63: MemWrite(j, 1, 0x00)` (R62, R68): every address of the buffer reads 0x00, so the canonical form
lists none. -/
def Memory.cleared : Memory := []

/-- R11: `for j in lo..hi: MemWrite(j, 1, v)`, an inclusive loop that does nothing when lo > hi. -/
def Memory.fill (m : Memory) (lo hi : Nat) (v : Byte) : Memory :=
  (List.range' lo (hi + 1 - lo)).foldl (fun m j => m.write j v) m

/-- R36: the bytes of a list at consecutive addresses from `i` on. -/
def Memory.writeBytes (m : Memory) (i : Nat) (bytes : List Byte) : Memory :=
  match bytes with
  | [] => m
  | b :: rest => Memory.writeBytes (m.write i b) (i + 1) rest

/-- R19: FILL, the number of pending bytes. -/
def State.fill (s : State) : Nat := s.cntLo.toNat % Config.blockBytes

/-- R18: COUNT64. -/
def State.count64 (s : State) : Nat := s.cntHi.toNat * 2 ^ 32 + s.cntLo.toNat

/-- R26: whether H, BLK, CNTLO and CNTHI have a value. -/
def State.hasValue (s : State) : Bool := s.phase != .uninit

/-- R26: H as the architecture shows it, none while it has no value. -/
def State.chaining? (s : State) : Option Chaining := if s.hasValue then some s.h else none

/-- R26: BLK[i] as the architecture shows it. -/
def State.blkByte? (s : State) (i : Nat) : Option Byte := if s.hasValue then some (s.blk.read i) else none

/-- R26: CNTLO as the architecture shows it. -/
def State.cntLo? (s : State) : Option Word := if s.hasValue then some s.cntLo else none

/-- R26: CNTHI as the architecture shows it. -/
def State.cntHi? (s : State) : Option Word := if s.hasValue then some s.cntHi else none

/-- R31: write one byte of BLK. -/
def State.memWrite (s : State) (i : Nat) (v : Byte) : State := { s with blk := s.blk.write i v }

/-- R31: write one byte at every address lo..hi of BLK. -/
def State.memFill (s : State) (lo hi : Nat) (v : Byte) : State := { s with blk := s.blk.fill lo hi v }

/-- R46: one absorbed byte. -/
def State.advanceCount (s : State) : State :=
  { s with cntLo := s.cntLo + 1, cntHi := if s.cntLo + 1 = 0 then s.cntHi + 1 else s.cntHi }

/-- R14: the one way UPDATE and FINAL write H. -/
def State.setH (s : State) (h : Chaining) : State := { s with h := h }

/-- R31: the whole buffer takes new contents. -/
def State.setBlk (s : State) (m : Memory) : State := { s with blk := m }

/-- R20: PHASE takes a new value. -/
def State.setPhase (s : State) (p : Phase) : State := { s with phase := p }

/-- R75: `H <- Compress(H, BLK)`. -/
def State.compressBlk (s : State) : State := s.setH (compress s.h s.blk.read)

/-- R36, R69: the bit length, big-endian, into BLK[56..63]. -/
def State.writeLength (s : State) : State :=
  { s with blk := s.blk.writeBytes 56 (beBytes (lengthHi s.cntHi s.cntLo) ++ beBytes (lengthLo s.cntLo)) }

/-- R12: the access was performed and returned `rd`. -/
def State.respond (s : State) (rd : Option Word) : State := { s with rdata := rd, raised := none }

/-- R99: `raise Err(c)`. The first cause since reset is kept; the access is not performed and returns `rd`, which is
0 for a read and nothing for a write. No register saves anything and nothing is entered (R108). The only way back is
hardware reset (R109). -/
def State.raise (s : State) (c : ErrCause) (rd : Option Word) : State :=
  { s with errCause := if s.err then s.errCause else c.code, err := true, rdata := rd, raised := some c }

/-- R60, R101, R102: run a command that needs an open message. -/
def State.whileAbsorbing (s : State) (command : State → State) : State :=
  match s.phase with
  | .uninit => s.raise .cmdBeforeInit none
  | .absorbing => command s
  | .done => s.raise .cmdAfterFinal none

/-- R89, R105: a read that returns `v` where it is allowed and has no value elsewhere. -/
def State.readWhen (s : State) (allowed : Bool) (v : Word) : State :=
  if allowed then s.respond (some v) else s.raise .readNoValue (some 0)

/-- R27: the block takes the host's next access. -/
def State.accept (s : State) : State := { s with pc := s.pc + 1 }

/-- R115: hardware reset between two accesses, the return from every error (R109). The registers of R28 take their
values after reset. `pc`, BASE and the rest of the host's list are no state of the block (R13) and stay
(DESIGN CHOICE, log 5). -/
def State.hardwareReset (s : State) : State :=
  { State.reset with pc := s.pc, baseIndex := s.baseIndex, host := s.host }

/-- D17, I16: a launch state with a preset counter. BLK lists the pending bytes from address 0 on (log 18). -/
def State.launch (h : Chaining) (cntHi cntLo : Word) (pending : List Byte) : State :=
  { State.reset with
    h := h, blk := Memory.writeBytes [] 0 pending, cntLo := cntLo, cntHi := cntHi, phase := .absorbing }

end Sys2Proof.Machine
end

