-- ==== Sys2Proof/Machine/Commands.lean ====
section
/-! DEFINITION. The commands INIT, UPDATE and FINAL (R60 to R74). -/

namespace Sys2Proof.Machine

/-- R61: the initial chaining value. -/
def iv : Chaining := ⟨0x67452301, 0xEFCDAB89, 0x98BADCFE, 0x10325476, 0xC3D2E1F0⟩

/-- R62: INIT's effect on the data registers and PHASE. -/
def State.startMessage (s : State) : State :=
  { s with h := iv, blk := Memory.cleared, cntLo := 0, cntHi := 0, phase := .absorbing }

/-- R63: UPDATE's effect in ABSORBING. -/
def State.absorbByte (s : State) (x : Byte) : State :=
  let s' := (s.memWrite s.fill x).advanceCount
  if s'.fill = 0 then s'.compressBlk else s'

/-- R67: the pad byte at FILL and zeros up to address 63. -/
def State.padBlock (s : State) : State := (s.memWrite s.fill 0x80).memFill (s.fill + 1) 63 0x00

/-- R68: where the length does not fit after the pad byte, compress the padded block and clear it. -/
def State.makeRoom (s : State) : State :=
  if 55 < s.fill then s.compressBlk.setBlk Memory.cleared else s

/-- R66: FINAL's effect in ABSORBING. -/
def State.finishMessage (s : State) : State :=
  s.padBlock.makeRoom.writeLength.compressBlk.setPhase .done

/-- INIT (R62): legal in every phase. -/
def execInit (s : State) : Result := .next (s.startMessage.respond none)

/-- UPDATE x (R63). -/
def execUpdate (x : Byte) (s : State) : Result :=
  .next (s.whileAbsorbing fun s => (s.absorbByte x).respond none)

/-- FINAL (R66). -/
def execFinal (s : State) : Result :=
  .next (s.whileAbsorbing fun s => s.finishMessage.respond none)

/-- R64: one copy of the source's update, `n = min(free, remaining)` bytes. -/
def State.copyChunk (s : State) (chunk : List Byte) : State :=
  let s' := { s with
    blk := s.blk.writeBytes s.fill chunk
    cntLo := s.cntLo + BitVec.ofNat 32 chunk.length
    cntHi := if s.cntLo + BitVec.ofNat 32 chunk.length = 0 then s.cntHi + 1 else s.cntHi }
  if chunk.length = Config.blockBytes - s.fill then s'.compressBlk else s'

/-- R64: the source's loop, with `fuel` bounding its turns (each takes a byte or more). -/
def State.updateLoop (fuel : Nat) (s : State) (data : List Byte) : State :=
  match fuel with
  | 0 => s
  | fuel + 1 =>
    if data = [] then s
    else
      let free := Config.blockBytes - s.fill
      State.updateLoop fuel (s.copyChunk (data.take free)) (data.drop free)

/-- R64: the source's multi-byte `update(data, length)`. -/
def State.updateSeq (s : State) (data : List Byte) : State := State.updateLoop data.length s data

end Sys2Proof.Machine
end

