-- ==== Sys2Proof/Machine/Reads.lean ====
section
/-! DEFINITION. The register reads (R89 to R97). -/

namespace Sys2Proof.Machine

/-- RD STATUS (R90): legal in every phase. -/
def execRdStatus (s : State) : Result := .next (s.respond (some s.status))

/-- RD COUNT_LO (R91). -/
def execRdCountLo (s : State) : Result := .next (s.readWhen (s.phase != .uninit) s.cntLo)

/-- RD COUNT_HI (R92). -/
def execRdCountHi (s : State) : Result := .next (s.readWhen (s.phase != .uninit) s.cntHi)

/-- RD DIGEST0 (R93). -/
def execRdDigest0 (s : State) : Result := .next (s.readWhen (s.phase == .done) s.h.h0)

/-- RD DIGEST1 (R94). -/
def execRdDigest1 (s : State) : Result := .next (s.readWhen (s.phase == .done) s.h.h1)

/-- RD DIGEST2 (R95). -/
def execRdDigest2 (s : State) : Result := .next (s.readWhen (s.phase == .done) s.h.h2)

/-- RD DIGEST3 (R96). -/
def execRdDigest3 (s : State) : Result := .next (s.readWhen (s.phase == .done) s.h.h3)

/-- RD DIGEST4 (R97). -/
def execRdDigest4 (s : State) : Result := .next (s.readWhen (s.phase == .done) s.h.h4)

end Sys2Proof.Machine
end

