-- ==== Sys2Proof/Machine/Dispatch.lean ====
section
/-! DEFINITION. One arm per instruction. -/

namespace Sys2Proof.Machine

-- The meaning of a decoded instruction, by constructor.
def exec (i : Instr) (s : State) : Host.Outcome State Fault Refusal :=
  match i with
  | .init => Sys2Proof.Machine.execInit s
  | .update x => Sys2Proof.Machine.execUpdate x s
  | .final => Sys2Proof.Machine.execFinal s
  | .rdStatus => Sys2Proof.Machine.execRdStatus s
  | .rdCountLo => Sys2Proof.Machine.execRdCountLo s
  | .rdCountHi => Sys2Proof.Machine.execRdCountHi s
  | .rdDigest0 => Sys2Proof.Machine.execRdDigest0 s
  | .rdDigest1 => Sys2Proof.Machine.execRdDigest1 s
  | .rdDigest2 => Sys2Proof.Machine.execRdDigest2 s
  | .rdDigest3 => Sys2Proof.Machine.execRdDigest3 s
  | .rdDigest4 => Sys2Proof.Machine.execRdDigest4 s

end Sys2Proof.Machine
end

