-- ==== Sys2Proof/Machine/Bus.lean ====
section
/-! DEFINITION. How the block performs the host's events, one at a time (R39, R41, R52, R106). -/

namespace Sys2Proof.Machine

/-- The error a rejected access raises (R103, R104). -/
def rejectCause (r : Reject) : ErrCause :=
  match r with
  | .badAccess => .badAccess
  | .illegalCmd => .illegalCmd

/-- R52: an access of the window runs its instruction, or raises the error its decoding gives. -/
def performAccess (a : Access) (s : State) : Result :=
  match decode a with
  | .ok i => exec i s.accept
  | .error r => .next (s.accept.raise (rejectCause r) a.errorData)

/-- One event of the host's list. An access outside the window does not reach the block (R30, R32, R113, log 8).
The two refused events are refused whatever their access, also where it lies outside the window: R114, I14 and I15 speak
of this instance's accesses only. DESIGN CHOICE (log 6), safe. -/
def performEvent (e : HostEvent) (s : State) : Result :=
  match e with
  | .access a => if a.selects s.baseIndex then performAccess a s else .next s
  | .reset => .next s.hardwareReset
  | .resetDuring _ => .refused .resetDuringAccess
  | .interleaved _ => .refused .interleavedMaster

/-- R41: the oldest event of the host's list. Where the host has nothing more to do, the block's state stays as it
is (DEDUCED from R13, R106 and R112, log 4; safe). -/
def performNext (s : State) : Result :=
  match s.host with
  | [] => .next s
  | e :: rest => performEvent e { s with host := rest }

/-- R41, R106: the host's next event is the access a table word stands for. -/
def issueTableWord (s : State) (nbits w : Nat) : State :=
  { s with host := .access (tableAccess s.baseIndex nbits w) :: s.host }

end Sys2Proof.Machine
end

