-- ==== Sys2Proof/Machine/Step.lean ====
section
/-! DEFINITION. One step of the machine, and how a table word comes to be its next instruction. -/

namespace Sys2Proof.Machine

/-- One step: the oldest event of the host's list (R41). -/
def step (s : State) : Host.Outcome State Fault Refusal := performNext s

/-- The host's next access is the one a table word stands for (log 3). -/
def State.withFetchWord (s : State) (nbits w : Nat) : State := issueTableWord s nbits w

end Sys2Proof.Machine
end

