-- ==== Sys2Proof/Machine/Asm.lean ====
section
/-! DEFINITION. The assembler: from lines (R55 to R58) to the host accesses they stand for, and from text to lines. -/

namespace Sys2Proof.Machine

/-- R53, R55: the read a register name stands for. -/
def readInstr (r : ReadReg) : Instr :=
  match r with
  | .status => .rdStatus
  | .countLo => .rdCountLo
  | .countHi => .rdCountHi
  | .digest0 => .rdDigest0
  | .digest1 => .rdDigest1
  | .digest2 => .rdDigest2
  | .digest3 => .rdDigest3
  | .digest4 => .rdDigest4

/-- R56: one UPDATE per byte, in order. -/
def updatesInstrs (s : List Byte) : List Instr := s.map Instr.update

/-- R58: `RD DIGEST0` to `RD DIGEST4`, in that order. -/
def rdDigestInstrs : List Instr := [.rdDigest0, .rdDigest1, .rdDigest2, .rdDigest3, .rdDigest4]

/-- R57: `INIT`, then `UPDATES s`, then `FINAL`, then `RDDIGEST`. -/
def hashInstrs (s : List Byte) : List Instr := .init :: updatesInstrs s ++ .final :: rdDigestInstrs

/-- The bytes that operands in range stand for. -/
def operandBytes (s : List Nat) : List Byte := s.map (BitVec.ofNat 8)

/-- R55 to R58: the accesses of a line for the block at `BASE = 0x100 * baseIndex`; none where the assembler rejects
the line. -/
def assembleLine (baseIndex : Nat) (l : AsmLine) : Option (List Access) :=
  if l.wf then
    match l with
    | .init => some [encode baseIndex .init]
    | .update b => some [encode baseIndex (.update (BitVec.ofNat 8 b))]
    | .final => some [encode baseIndex .final]
    | .rd r => some [encode baseIndex (readInstr r)]
    | .wrRaw off v =>
      some [.write (Config.windowBytes * baseIndex + off) Config.accessBytes (BitVec.ofNat 32 v)]
    | .rdRaw off => some [.read (Config.windowBytes * baseIndex + off) Config.accessBytes]
    | .updates s => some ((updatesInstrs (operandBytes s)).map (encode baseIndex))
    | .hash s => some ((hashInstrs (operandBytes s)).map (encode baseIndex))
    | .rdDigest => some (rdDigestInstrs.map (encode baseIndex))
  else none

/-- The accesses of a program, line after line; none where a line is rejected. -/
def assemble (baseIndex : Nat) (ls : List AsmLine) : Option (List Access) :=
  match ls with
  | [] => some []
  | l :: rest =>
    match assembleLine baseIndex l, assemble baseIndex rest with
    | some as, some bs => some (as ++ bs)
    | _, _ => none

/-! The text of a line. What R55 and R56 leave open (spacing, a semicolon inside quotes, the elements and
separators of a bracketed list) is DESIGN CHOICE, log 14. -/

/-- The single quote. -/
def singleQuote : Char := Char.ofNat 39

/-- The double quote. -/
def doubleQuote : Char := Char.ofNat 34

/-- White space between the words of a line. -/
def isBlank (c : Char) : Bool := c == ' ' || c == '\t'

/-- A text without the white space at its two ends. -/
def trimBlanks (cs : List Char) : List Char :=
  ((cs.dropWhile isBlank).reverse.dropWhile isBlank).reverse

/-- Where in a line's text a character stands. -/
inductive TextMode where
  /-- Outside every quotation. -/
  | plain
  /-- Inside a double-quoted string. -/
  | inString
  /-- After a single quote: the quoted character and its closing quote. -/
  | quoted
  /-- After a quoted character: the closing quote. -/
  | closing
deriving DecidableEq, Repr

/-- The mode after a character. -/
def TextMode.after (m : TextMode) (c : Char) : TextMode :=
  match m with
  | .plain => if c == doubleQuote then .inString else if c == singleQuote then .quoted else .plain
  | .inString => if c == doubleQuote then .plain else .inString
  | .quoted => .closing
  | .closing => .plain

/-- R55: a line without its comment. -/
def dropComment (m : TextMode) (cs : List Char) : List Char :=
  match cs with
  | [] => []
  | c :: rest => if m == .plain && c == ';' then [] else c :: dropComment (m.after c) rest

/-- The value of a digit, at most 15. -/
def digitValue (c : Char) : Option Nat :=
  if '0' ≤ c ∧ c ≤ '9' then some (c.toNat - '0'.toNat)
  else if 'a' ≤ c ∧ c ≤ 'f' then some (c.toNat - 'a'.toNat + 10)
  else if 'A' ≤ c ∧ c ≤ 'F' then some (c.toNat - 'A'.toNat + 10)
  else none

/-- Digits in a radix, after the value `acc` of those before them. -/
def digitsValue (radix acc : Nat) (cs : List Char) : Option Nat :=
  match cs with
  | [] => some acc
  | c :: rest =>
    match digitValue c with
    | some d => if d < radix then digitsValue radix (acc * radix + d) rest else none
    | none => none

/-- R55: a number is `0x` hex or decimal. -/
def parseNumber (cs : List Char) : Option Nat :=
  match cs with
  | [] => none
  | ['0', 'x'] => none
  | '0' :: 'x' :: rest => digitsValue 16 0 rest
  | _ => digitsValue 10 0 cs

/-- R55: the ASCII code of a character. -/
def asciiCode (c : Char) : Option Nat := if c.toNat < 128 then some c.toNat else none

/-- R55: a byte operand is a number or a character in single quotes. -/
def parseByte (cs : List Char) : Option Nat :=
  match cs with
  | [q, c, r] => if q == singleQuote && r == singleQuote then asciiCode c else parseNumber cs
  | _ => parseNumber cs

/-- Every value of a list, or none. -/
def allSome (vs : List (Option Nat)) : Option (List Nat) :=
  match vs with
  | [] => some []
  | v :: rest =>
    match v, allSome rest with
    | some n, some ns => some (n :: ns)
    | _, _ => none

/-- The parts of a text between its commas, in mode `m` and after the part `part` read so far (in reverse). A comma
inside quotes separates nothing. DESIGN CHOICE (log 14): the spec gives no grammar of a list. -/
def splitCommas (m : TextMode) (part : List Char) (cs : List Char) : List (List Char) :=
  match cs with
  | [] => [part.reverse]
  | c :: rest =>
    if m == .plain && c == ',' then part.reverse :: splitCommas .plain [] rest
    else splitCommas (m.after c) (c :: part) rest

/-- R56: a byte sequence is a double-quoted ASCII string or a bracketed list of bytes. How a list writes its bytes is
left open by R56. DESIGN CHOICE (log 14): each element has a form of R55's byte operand (a number or a quoted
character), elements are separated by commas, and blanks around an element are dropped. -/
def parseBytes (cs : List Char) : Option (List Nat) :=
  match cs with
  | [] => none
  | c :: rest =>
    match rest.reverse with
    | [] => none
    | last :: inner =>
      let inside := inner.reverse
      if c == doubleQuote && last == doubleQuote then
        if inside.contains doubleQuote then none else allSome (inside.map asciiCode)
      else if c == '[' && last == ']' then
        if trimBlanks inside == [] then some []
        else allSome ((splitCommas .plain [] inside).map fun p => parseByte (trimBlanks p))
      else none

/-- R55: the register names. -/
def parseReadReg (cs : List Char) : Option ReadReg :=
  if cs == ['S', 'T', 'A', 'T', 'U', 'S'] then some .status
  else if cs == ['C', 'O', 'U', 'N', 'T', '_', 'L', 'O'] then some .countLo
  else if cs == ['C', 'O', 'U', 'N', 'T', '_', 'H', 'I'] then some .countHi
  else if cs == ['D', 'I', 'G', 'E', 'S', 'T', '0'] then some .digest0
  else if cs == ['D', 'I', 'G', 'E', 'S', 'T', '1'] then some .digest1
  else if cs == ['D', 'I', 'G', 'E', 'S', 'T', '2'] then some .digest2
  else if cs == ['D', 'I', 'G', 'E', 'S', 'T', '3'] then some .digest3
  else if cs == ['D', 'I', 'G', 'E', 'S', 'T', '4'] then some .digest4
  else none

/-- R55 to R58: a word and its operands as a line. -/
def parseOperation (word operands : List Char) : Option AsmLine :=
  if word == ['I', 'N', 'I', 'T'] then
    if operands == [] then some .init else none
  else if word == ['F', 'I', 'N', 'A', 'L'] then
    if operands == [] then some .final else none
  else if word == ['R', 'D', 'D', 'I', 'G', 'E', 'S', 'T'] then
    if operands == [] then some .rdDigest else none
  else if word == ['U', 'P', 'D', 'A', 'T', 'E'] then (parseByte operands).map .update
  else if word == ['U', 'P', 'D', 'A', 'T', 'E', 'S'] then (parseBytes operands).map .updates
  else if word == ['H', 'A', 'S', 'H'] then (parseBytes operands).map .hash
  else if word == ['R', 'D'] then
    match parseReadReg operands with
    | some r => some (.rd r)
    | none => (parseNumber operands).map .rdRaw
  else if word == ['W', 'R'] then
    match (splitCommas .plain [] operands).map fun p => parseNumber (trimBlanks p) with
    | [some off, some v] => some (.wrRaw off v)
    | _ => none
  else none

/-- R55: one line of text. The outer none is a text that is no line; the inner none is a line with no operation.
DESIGN CHOICE (log 14): a line that is blank or holds only a comment is allowed and stands for no access. -/
def parseLine (cs : List Char) : Option (Option AsmLine) :=
  let body := trimBlanks (dropComment .plain cs)
  if body == [] then some none
  else
    let word := body.takeWhile fun c => !isBlank c
    let operands := trimBlanks (body.dropWhile fun c => !isBlank c)
    (parseOperation word operands).map some

/-- The lines of a program's text. -/
def parseLines (ls : List (List Char)) : Option (List AsmLine) :=
  match ls with
  | [] => some []
  | l :: rest =>
    match parseLine l, parseLines rest with
    | some none, some ps => some ps
    | some (some p), some ps => some (p :: ps)
    | _, _ => none

/-- A program's text as the accesses it stands for. -/
def assembleText (baseIndex : Nat) (ls : List (List Char)) : Option (List Access) :=
  (parseLines ls).bind (assemble baseIndex)

end Sys2Proof.Machine
end

