-- ==== Sys2Proof/Safety.lean ====
section
/-! DEFINITION. What a good state and a good run are, in the terms the statements use (R110, R122). -/

/-- An event whose effect the spec gives (R114): an access, or hardware reset between accesses. -/
def Sys2Proof.HostEvent.specified (e : Sys2Proof.HostEvent) : Bool :=
  match e with
  | .access _ => true
  | .reset => true
  | .resetDuring _ => false
  | .interleaved _ => false

namespace Sys2Proof.Machine

/-- The invariant of the block's state: the buffer is in canonical form; ERRCAUSE is 0 exactly while ERR is 0 and
never 6 or 7 (R22, R100); an access that raised `Err` left ERR set and returned 0 or nothing (R99). -/
abbrev State.Inv (s : State) : Prop :=
  s.blk.wf = true ∧ (s.err = false ↔ s.errCause = 0) ∧ s.errCause.toNat ≤ 5
    ∧ (s.raised.isSome = true → s.err = true ∧ (s.rdata = none ∨ s.rdata = some 0))

/-- The state with the host about to issue these accesses. -/
def State.issuing (s : State) (as : List Access) : State := { s with host := as.map .access }

/-- R122: the run of a sequence of accesses, from `s` to the end of the sequence. -/
def runAccesses (as : List Access) (s : State) : Result := core.run as.length (s.issuing as)

/-- R122: a run is good when no access in it raised `Err`, which STATUS.ERR shows at its end (R110). -/
def goodRun (as : List Access) (s : State) : Prop := ∃ t, runAccesses as s = .next t ∧ t.err = false

/-- What the next `k` steps return to the host, in order (R12). -/
def returned (k : Nat) (s : State) : List (Option Word) :=
  match k with
  | 0 => []
  | k + 1 =>
    match step s with
    | .next t => t.rdata :: returned k t
    | .fault _ => []
    | .refused _ => []

/-- R122: what the accesses of a run return, in order. -/
def returnedBy (as : List Access) (s : State) : List (Option Word) := returned as.length (s.issuing as)

/-- The fault of each of the next `k` steps, in order (R12, R110). -/
def faults (k : Nat) (s : State) : List (Option ErrCause) :=
  match k with
  | 0 => []
  | k + 1 =>
    match step s with
    | .next t => t.raised :: faults k t
    | .fault _ => []
    | .refused _ => []

/-- The meanings of a list of instructions, one after the other. -/
def execAll (is : List Instr) (s : State) : Result :=
  match is with
  | [] => .next s
  | i :: rest =>
    match exec i s with
    | .next t => execAll rest t
    | .fault f => .fault f
    | .refused r => .refused r

/-- R37, R122: the 20 digest bytes the host forms from the five values it read. -/
def serialize (words : List Word) : List Byte := words.flatMap beBytes

end Sys2Proof.Machine
end

