-- ==== Sys2Proof/Certificates/Slice0/Obligations.lean ====
section
/-! DEFINITION. The statements for the provers, and the vocabulary they use beside the model's own. -/

/-- The instruction is a register read (R53). -/
def Sys2Proof.Instr.isRead (i : Sys2Proof.Instr) : Prop :=
  i = .rdStatus ∨ i = .rdCountLo ∨ i = .rdCountHi ∨ i = .rdDigest0 ∨ i = .rdDigest1 ∨ i = .rdDigest2
    ∨ i = .rdDigest3 ∨ i = .rdDigest4

namespace Sys2Proof.Machine

/-- The block has taken the oldest event, an access, off the host's list (R27, R41). -/
def State.taking (s : State) (rest : List HostEvent) : State := { s with host := rest, pc := s.pc + 1 }

/-- R99: what `raise Err` leaves, for a cause and its code. -/
def State.rejecting (s : State) (c : ErrCause) (code : BitVec 3) (rd : Option Word) : State :=
  { s with err := true, errCause := if s.err = true then s.errCause else code, rdata := rd, raised := some c }

/-- R12: what a performed read leaves. -/
def State.reading (s : State) (v : Word) : State := { s with rdata := some v, raised := none }

/-- R106: the cause an access of the window raises, by the rules' own numbers, checks in R106's order. -/
def causeOf (a : Access) (s : State) : Option ErrCause :=
  match a with
  | .write addr size v =>
    if size ≠ 4 ∨ addr % 4 ≠ 0 then some .badAccess
    else if addr % 256 ≠ 0 then some .badAccess
    else if v.toNat = 1 then none
    else if v.toNat = 3 ∨ (v.toNat % 256 = 2 ∧ v.toNat < 65536) then
      match s.phase with
      | .uninit => some .cmdBeforeInit
      | .absorbing => none
      | .done => some .cmdAfterFinal
    else some .illegalCmd
  | .read addr size =>
    if size ≠ 4 ∨ addr % 4 ≠ 0 then some .badAccess
    else if addr % 256 = 0x04 then none
    else if addr % 256 = 0x08 ∨ addr % 256 = 0x0C then
      if s.phase = .uninit then some .readNoValue else none
    else if 0x10 ≤ addr % 256 ∧ addr % 256 ≤ 0x20 then
      if s.phase = .done then none else some .readNoValue
    else some .badAccess

/-- The state after one access of the host (R41): what its rule gives for an access of the window, and nothing for an
access elsewhere on the bus. -/
def afterAccess (s : State) (a : Access) : State :=
  if a.selects s.baseIndex then
    match performAccess a s with
    | .next t => t
    | .fault _ => s
    | .refused _ => s
  else s

/-- R36, R69: byte `i`, 56 <= i <= 63, of a block that ends in the big-endian bit length of `count` bytes. -/
def lengthByte (count i : Nat) : Byte := BitVec.ofNat 8 (8 * count % 2 ^ 64 / 256 ^ (63 - i))

/-- R67: the block after the pad byte and the zero fill. -/
def paddedByte (s : State) (i : Nat) : Byte :=
  if i < s.cntLo.toNat % 64 then s.blk.read i else if i = s.cntLo.toNat % 64 then 0x80 else 0x00

/-- R68, R69: the block FINAL compresses last. -/
def lastByte (s : State) (i : Nat) : Byte :=
  if 56 ≤ i then lengthByte (s.cntHi.toNat * 2 ^ 32 + s.cntLo.toNat) i
  else if s.cntLo.toNat % 64 ≤ 55 then paddedByte s i
  else 0x00

/-- The glossary's padding of a whole message: 0x80, zeros, the 64-bit bit length, up to a multiple of 64 bytes. -/
def paddedMessage (m : List Byte) : List Byte :=
  m ++ [0x80] ++ List.replicate ((119 - m.length % 64) % 64) 0x00
    ++ (List.range 8).map fun i => lengthByte m.length (56 + i)

/-- SHA-1 of a whole message: the compression step over the blocks of the padded message, from the IV (R61). -/
def sha1 (m : List Byte) : Chaining :=
  (List.range ((paddedMessage m).length / 64)).foldl
    (fun h k => compress h fun i => (paddedMessage m).getD (64 * k + i) 0x00)
    ⟨0x67452301, 0xEFCDAB89, 0x98BADCFE, 0x10325476, 0xC3D2E1F0⟩

/-- What the host gets back for an instruction and, right after it, a read. -/
def State.readAfter (s : State) (i r : Instr) : List (Option Word) :=
  returnedBy [encode s.baseIndex i, encode s.baseIndex r] s

/-- R23: the number STATUS shows for a PHASE code, with the error record of the state. -/
def State.statusWord (s : State) (phaseCode : Nat) : Word :=
  BitVec.ofNat 32 (phaseCode + (if s.err = true then 4 else 0) + 256 * s.errCause.toNat)

/-- Equal but for the error record, the response and the host side: the data registers and PHASE. -/
def State.sameMessage (s t : State) : Prop :=
  s.h = t.h ∧ s.blk = t.blk ∧ s.cntLo = t.cntLo ∧ s.cntHi = t.cntHi ∧ s.phase = t.phase

/-- Equal in everything but the data registers (R14 to R17). -/
def State.sameOutside (s t : State) : Prop :=
  s.phase = t.phase ∧ s.err = t.err ∧ s.errCause = t.errCause ∧ s.pc = t.pc ∧ s.rdata = t.rdata
    ∧ s.raised = t.raised ∧ s.baseIndex = t.baseIndex ∧ s.host = t.host

end Sys2Proof.Machine

open Sys2Proof Sys2Proof.Machine

/-! ### Reset -/

/-- R115: what hardware reset sets, and that it leaves H, BLK, CNTLO and CNTHI with no value; the same of the state
after reset. STATUS then reads 0. -/
def Obligations.HardwareResetClearsControlState : Prop :=
  (∀ (s : State) (rest : List HostEvent), s.host = .reset :: rest → ∃ t, step s = .next t
    ∧ t.phase = .uninit ∧ t.err = false ∧ t.errCause = 0 ∧ t.chaining? = none ∧ (∀ i, t.blkByte? i = none)
    ∧ t.cntLo? = none ∧ t.cntHi? = none ∧ exec .rdStatus t = .next (t.reading 0x00000000))
  ∧ State.reset.phase = .uninit ∧ State.reset.err = false ∧ State.reset.errCause = 0
  ∧ State.reset.chaining? = none ∧ (∀ i, State.reset.blkByte? i = none)
  ∧ State.reset.cntLo? = none ∧ State.reset.cntHi? = none
  ∧ exec .rdStatus State.reset = .next (State.reset.reading 0x00000000)

/-- The model's own choices at reset (log 1, log 5, log 9): the raw bits, and that reset leaves the host's list, `pc` and
BASE alone. From the spec: `pc` starts at 0 (R27) and nothing persists outside R13's list. -/
def Obligations.HardwareResetLeavesOneState : Prop :=
  ∀ (s : State) (rest : List HostEvent), s.host = .reset :: rest →
    step s = .next { State.reset with pc := s.pc, baseIndex := s.baseIndex, host := rest }

/-! ### The commands -/

/-- R62: INIT, in every phase. All registers, every byte of BLK, and what stays. A second INIT changes nothing. -/
def Obligations.InitStartsMessage : Prop :=
  decodeCommand 0x00000001 = .ok .init ∧
  (∀ v : Word, v.toNat % 256 = 1 → v ≠ 1 → decodeCommand v = .error .illegalCmd) ∧
  ∀ s : State, ∃ t, exec .init s = .next t
    ∧ t.h = ⟨0x67452301, 0xEFCDAB89, 0x98BADCFE, 0x10325476, 0xC3D2E1F0⟩
    ∧ (∀ i, t.blk.read i = 0x00) ∧ t.cntLo = 0 ∧ t.cntHi = 0 ∧ t.phase = .absorbing
    ∧ t.err = s.err ∧ t.errCause = s.errCause ∧ t.pc = s.pc ∧ t.baseIndex = s.baseIndex ∧ t.host = s.host
    ∧ t.rdata = none ∧ t.raised = none ∧ exec .init t = .next t

/-- R63: UPDATE x in ABSORBING: the byte at FILL, the counter, one compression when the block fills, and nothing else;
outside ABSORBING the error of R101 or R102 and nothing else. -/
def Obligations.UpdateAbsorbsOneByte : Prop :=
  ∀ (x : Byte), decodeCommand ((0x0000 : BitVec 16) ++ x ++ (0x02 : BitVec 8)) = .ok (.update x) ∧
  ∀ s : State, s.blk.wf = true →
    (s.phase = .absorbing → ∃ t, exec (.update x) s = .next t
      ∧ t.blk.read (s.cntLo.toNat % 64) = x
      ∧ (∀ i, i ≠ s.cntLo.toNat % 64 → t.blk.read i = s.blk.read i)
      ∧ t.cntLo.toNat = (s.cntLo.toNat + 1) % 2 ^ 32
      ∧ t.cntHi.toNat = (if s.cntLo.toNat = 2 ^ 32 - 1 then (s.cntHi.toNat + 1) % 2 ^ 32 else s.cntHi.toNat)
      ∧ t.h = (if s.cntLo.toNat % 64 = 63 then compress s.h t.blk.read else s.h)
      ∧ t.phase = .absorbing ∧ t.err = s.err ∧ t.errCause = s.errCause ∧ t.pc = s.pc
      ∧ t.baseIndex = s.baseIndex ∧ t.host = s.host ∧ t.rdata = none ∧ t.raised = none)
    ∧ (s.phase = .uninit → exec (.update x) s = .next (s.rejecting .cmdBeforeInit 1 none))
    ∧ (s.phase = .done → exec (.update x) s = .next (s.rejecting .cmdAfterFinal 2 none))

/-- R66 to R70: FINAL in ABSORBING: padding, one compression when at most 55 bytes are pending and two otherwise, the
length, PHASE, and nothing else; outside ABSORBING the error of R101 or R102 and nothing else. -/
def Obligations.FinalPadsAndCompresses : Prop :=
  decodeCommand 0x00000003 = .ok .final ∧
  ∀ s : State, s.blk.wf = true →
    (s.phase = .absorbing → ∃ t, exec .final s = .next t
      ∧ t.h = (if s.cntLo.toNat % 64 ≤ 55 then compress s.h (lastByte s)
          else compress (compress s.h (paddedByte s)) (lastByte s))
      ∧ (∀ i, i < 64 → t.blk.read i = lastByte s i) ∧ (∀ i, 64 ≤ i → t.blk.read i = s.blk.read i)
      ∧ t.cntLo = s.cntLo ∧ t.cntHi = s.cntHi ∧ t.phase = .done
      ∧ t.err = s.err ∧ t.errCause = s.errCause ∧ t.pc = s.pc ∧ t.baseIndex = s.baseIndex ∧ t.host = s.host
      ∧ t.rdata = none ∧ t.raised = none)
    ∧ (s.phase = .uninit → exec .final s = .next (s.rejecting .cmdBeforeInit 1 none))
    ∧ (s.phase = .done → exec .final s = .next (s.rejecting .cmdAfterFinal 2 none))

/-- R118: after INIT the message state is the same whatever came before; only ERR and ERRCAUSE carry over. -/
def Obligations.InitForgetsEarlierMessages : Prop :=
  ∀ s₁ s₂ t₁ t₂ : State, exec .init s₁ = .next t₁ → exec .init s₂ = .next t₂ →
    t₁.sameMessage t₂ ∧ t₁.err = s₁.err ∧ t₁.errCause = s₁.errCause

/-! ### The reads -/

/-- R23, R90: RD STATUS, every field of the word, in every phase; nothing but the response is written. PHASE never
reads 3, and under the invariant ERRCAUSE never reads 6 or 7. -/
def Obligations.StatusReadsEveryField : Prop :=
  decodeRead 0x04 = .ok .rdStatus ∧
  ∀ s : State, ∃ w : Word, exec .rdStatus s = .next (s.reading w)
    ∧ w.toNat % 4 = (match s.phase with | .uninit => 0 | .absorbing => 1 | .done => 2)
    ∧ w.toNat / 4 % 2 = (if s.err = true then 1 else 0)
    ∧ w.toNat / 8 % 32 = 0
    ∧ w.toNat / 256 % 8 = s.errCause.toNat
    ∧ w.toNat / 2048 = 0
    ∧ (s.Inv → w.toNat / 256 % 8 ≤ 5)

/-- R91, R92: RD COUNT_LO and RD COUNT_HI: the counter half outside UNINIT, and `Err(5)` with 0 in UNINIT. -/
def Obligations.CountReads : Prop :=
  decodeRead 0x08 = .ok .rdCountLo ∧ decodeRead 0x0C = .ok .rdCountHi ∧
  ∀ s : State,
    (s.phase ≠ .uninit → exec .rdCountLo s = .next (s.reading s.cntLo)
      ∧ exec .rdCountHi s = .next (s.reading s.cntHi))
    ∧ (s.phase = .uninit → exec .rdCountLo s = .next (s.rejecting .readNoValue 5 (some 0))
      ∧ exec .rdCountHi s = .next (s.rejecting .readNoValue 5 (some 0)))

/-- R93 to R97: RD DIGEST0 to RD DIGEST4: the word of H in DONE, and `Err(5)` with 0 elsewhere. -/
def Obligations.DigestReads : Prop :=
  decodeRead 0x10 = .ok .rdDigest0 ∧ decodeRead 0x14 = .ok .rdDigest1 ∧ decodeRead 0x18 = .ok .rdDigest2
  ∧ decodeRead 0x1C = .ok .rdDigest3 ∧ decodeRead 0x20 = .ok .rdDigest4 ∧
  ∀ s : State,
    (s.phase = .done → exec .rdDigest0 s = .next (s.reading s.h.h0)
      ∧ exec .rdDigest1 s = .next (s.reading s.h.h1) ∧ exec .rdDigest2 s = .next (s.reading s.h.h2)
      ∧ exec .rdDigest3 s = .next (s.reading s.h.h3) ∧ exec .rdDigest4 s = .next (s.reading s.h.h4))
    ∧ (s.phase ≠ .done → ∀ i, i = .rdDigest0 ∨ i = .rdDigest1 ∨ i = .rdDigest2 ∨ i = .rdDigest3 ∨ i = .rdDigest4 →
      exec i s = .next (s.rejecting .readNoValue 5 (some 0)))

/-- R38, R89: a read writes no register of the message, and a good read repeated returns the same value. -/
def Obligations.ReadsHaveNoSideEffectOnTheMessage : Prop :=
  ∀ (i : Instr) (s : State), i.isRead → ∃ t, exec i s = .next t
    ∧ s.sameMessage t ∧ t.pc = s.pc ∧ t.baseIndex = s.baseIndex ∧ t.host = s.host
    ∧ (t.raised = none → t.err = s.err ∧ t.errCause = s.errCause ∧ exec i t = .next t)
    ∧ (t.raised ≠ none → t.raised = some .readNoValue ∧ t.err = true ∧ t.rdata = some 0)

/-! ### Errors -/

/-- R100: the codes ERRCAUSE holds. -/
def Obligations.ErrorCodes : Prop :=
  ErrCause.code .cmdBeforeInit = 1 ∧ ErrCause.code .cmdAfterFinal = 2 ∧ ErrCause.code .illegalCmd = 3
  ∧ ErrCause.code .badAccess = 4 ∧ ErrCause.code .readNoValue = 5

/-- R101, R102: a legal UPDATE or FINAL word written to CMD outside ABSORBING is not performed. -/
def Obligations.CommandOutsideMessageRaises : Prop :=
  ∀ (s : State) (addr : Nat) (v : Word) (rest : List HostEvent),
    s.host = .access (.write addr 4 v) :: rest → addr = 256 * s.baseIndex →
    (v.toNat = 3 ∨ (v.toNat % 256 = 2 ∧ v.toNat < 65536)) →
    (s.phase = .uninit → step s = .next ((s.taking rest).rejecting .cmdBeforeInit 1 none))
    ∧ (s.phase = .done → step s = .next ((s.taking rest).rejecting .cmdAfterFinal 2 none))

/-- R51, R103: a word that is not a command, written to CMD, raises `Err(3)` in every phase and changes nothing else. -/
def Obligations.IllegalWordRaises : Prop :=
  ∀ (s : State) (addr : Nat) (v : Word) (rest : List HostEvent),
    s.host = .access (.write addr 4 v) :: rest → addr = 256 * s.baseIndex →
    v.toNat ≠ 1 → v.toNat ≠ 3 → ¬ (v.toNat % 256 = 2 ∧ v.toNat < 65536) →
    step s = .next ((s.taking rest).rejecting .illegalCmd 3 none)

/-- R33, R98, R104: a bad access of the window raises `Err(4)`, whatever its value; a read returns 0. -/
def Obligations.BadAccessRaises : Prop :=
  ∀ (s : State) (off size : Nat) (v : Word) (rest : List HostEvent), off < 256 →
    (s.host = .access (.write (256 * s.baseIndex + off) size v) :: rest → size ≠ 4 ∨ off ≠ 0 →
      step s = .next ((s.taking rest).rejecting .badAccess 4 none))
    ∧ (s.host = .access (.read (256 * s.baseIndex + off) size) :: rest →
      size ≠ 4 ∨ off % 4 ≠ 0 ∨ off = 0 ∨ 0x24 ≤ off →
      step s = .next ((s.taking rest).rejecting .badAccess 4 (some 0)))

/-- R105: a read of a value that does not exist raises `Err(5)` and returns 0. -/
def Obligations.NoValueReadRaises : Prop :=
  ∀ (s : State) (off : Nat) (rest : List HostEvent),
    s.host = .access (.read (256 * s.baseIndex + off) 4) :: rest →
    (((off = 0x08 ∨ off = 0x0C) ∧ s.phase = .uninit)
      ∨ ((off = 0x10 ∨ off = 0x14 ∨ off = 0x18 ∨ off = 0x1C ∨ off = 0x20) ∧ s.phase ≠ .done)) →
    step s = .next ((s.taking rest).rejecting .readNoValue 5 (some 0))

/-- R106: one access raises at most one cause, the first that R106's checks give; and it raises none only where the
checks give none. -/
def Obligations.FirstFailedCheckDecidesTheCause : Prop :=
  ∀ (s : State) (a : Access) (rest : List HostEvent),
    s.host = .access a :: rest → a.selects s.baseIndex = true →
    ∃ t, step s = .next t ∧ t.raised = causeOf a s

/-- R99: the error is precise: an access that raises `Err` changes ERR and ERRCAUSE only (and the response), and keeps
the first cause. -/
def Obligations.ErrorsArePrecise : Prop :=
  ∀ (s t : State) (a : Access) (c : ErrCause) (rest : List HostEvent),
    s.host = .access a :: rest → a.selects s.baseIndex = true → step s = .next t → t.raised = some c →
    t = (s.taking rest).rejecting c c.code (match a with | .write _ _ _ => none | .read _ _ => some 0)

/-- R21, R22: an access that raises nothing writes neither ERR nor ERRCAUSE. -/
def Obligations.OnlyErrorsWriteTheErrorRecord : Prop :=
  ∀ (s t : State) (a : Access) (rest : List HostEvent),
    s.host = .access a :: rest → a.selects s.baseIndex = true → step s = .next t → t.raised = none →
    t.err = s.err ∧ t.errCause = s.errCause

/-- R109: no access clears ERR, and none changes ERRCAUSE once ERR is set; hardware reset clears both. -/
def Obligations.NoAccessClearsAnError : Prop :=
  (∀ (s : State) (a : Access) (rest : List HostEvent), s.host = .access a :: rest → s.err = true →
    ∃ t, step s = .next t ∧ t.err = true ∧ t.errCause = s.errCause)
  ∧ ∀ (s : State) (rest : List HostEvent), s.host = .reset :: rest →
    ∃ t, step s = .next t ∧ t.err = false ∧ t.errCause = 0

/-- R110: over a run of accesses from a state with ERR = 0, ERR is 1 at the end exactly when some access raised. -/
def Obligations.ErrRecordsWhetherAnyAccessFaulted : Prop :=
  ∀ (as : List Access) (s : State), s.err = false → (∀ a ∈ as, a.selects s.baseIndex = true) →
    ∃ t, runAccesses as s = .next t
      ∧ (t.err = true ↔ ∃ c, some c ∈ faults as.length (s.issuing as))

/-! ### Decoding -/

/-- The bytes a step acts on: when the host's next access decodes to a well-formed instruction, the step is that
instruction's meaning, with the event taken off the list and `pc` advanced. -/
def Obligations.StepRunsTheDecodedInstruction : Prop :=
  ∀ (s : State) (a : Access) (i : Instr) (rest : List HostEvent),
    s.host = .access a :: rest → a.selects s.baseIndex = true → decode a = .ok i → i.wf = true →
    step s = exec i { s with host := rest, pc := s.pc + 1 }

/-- R49, R53: words and offsets written out from the tables decode to their instructions. -/
def Obligations.SampleEncodingsDecode : Prop :=
  decode (.write 0x00 4 0x00000001) = .ok .init
  ∧ decode (.write 0x00 4 0x00006102) = .ok (.update 0x61)
  ∧ decode (.write 0x00 4 0x0000FF02) = .ok (.update 0xFF)
  ∧ decode (.write 0x00 4 0x00000003) = .ok .final
  ∧ decode (.read 0x04 4) = .ok .rdStatus ∧ decode (.read 0x0C 4) = .ok .rdCountHi
  ∧ decode (.read 0x20 4) = .ok .rdDigest4
  ∧ decode (.write 0x00 4 0x00000103) = .error .illegalCmd ∧ decode (.write 0x00 2 0x00000001) = .error .badAccess
  ∧ decode (.read 0x24 4) = .error .badAccess ∧ decode (.read 0x06 4) = .error .badAccess

/-- R48 to R53: encode and decode agree both ways: an instruction's access selects the block and decodes to it, and an
access of the window that decodes to an instruction is that instruction's access. -/
def Obligations.EncodeAndDecodeAgree : Prop :=
  (∀ (k : Nat) (i : Instr), i.wf = true → (encode k i).selects k = true ∧ decode (encode k i) = .ok i)
  ∧ ∀ (k : Nat) (a : Access) (i : Instr), a.selects k = true → decode a = .ok i → a = encode k i

/-- R51: every word is exactly one of INIT, one of the 256 UPDATE words, FINAL, or illegal. -/
def Obligations.EveryWordIsOneCommandOrIllegal : Prop :=
  ∀ v : Word,
    (decodeCommand v = .ok .init ↔ v.toNat = 0x00000001)
    ∧ (∀ x : Byte, decodeCommand v = .ok (.update x) ↔ v.toNat = 0x00000002 + 256 * x.toNat)
    ∧ (decodeCommand v = .ok .final ↔ v.toNat = 0x00000003)
    ∧ (decodeCommand v = .error .illegalCmd ↔
        v.toNat ≠ 1 ∧ v.toNat ≠ 3 ∧ ¬ (v.toNat % 256 = 2 ∧ v.toNat < 65536))
    ∧ (legal v = true ↔ decodeCommand v ≠ .error .illegalCmd)

/-- R53: the decoder and the opcode table agree on every 32-bit aligned access, and no two rows match one access. -/
def Obligations.DecoderAgreesWithOpcodeTable : Prop :=
  (∀ (a : Access) (name : String), a.size = 4 → a.addr % 4 = 0 →
    ((∃ i, decode a = .ok i ∧ i.mnemonic = name) ↔
      ∃ r ∈ opcodeTable, r.mnemonic = name ∧ r.matchesAccess a = true))
  ∧ ∀ (a : Access) (r₁ r₂ : OpcodeRow), r₁ ∈ opcodeTable → r₂ ∈ opcodeTable →
    r₁.matchesAccess a = true → r₂.matchesAccess a = true → r₁ = r₂

/-! ### The compression step -/

/-- R79 to R84: one round: the round function and constant of each range, and the rotation of the working variables. -/
def Obligations.RoundUsesItsFunctionAndConstant : Prop :=
  ∀ (v : Working) (w : Word) (t : Nat),
    (roundUpdate v w t).e = v.d ∧ (roundUpdate v w t).d = v.c
    ∧ (roundUpdate v w t).c = v.b.rotateLeft 30 ∧ (roundUpdate v w t).b = v.a
    ∧ (t ≤ 19 → (roundUpdate v w t).a
        = v.a.rotateLeft 5 + v.e + w + ((v.b &&& v.c) ||| (~~~v.b &&& v.d)) + 0x5A827999)
    ∧ (20 ≤ t → t ≤ 39 → (roundUpdate v w t).a
        = v.a.rotateLeft 5 + v.e + w + (v.b ^^^ v.c ^^^ v.d) + 0x6ED9EBA1)
    ∧ (40 ≤ t → t ≤ 59 → (roundUpdate v w t).a
        = v.a.rotateLeft 5 + v.e + w + ((v.b &&& v.c) ||| (v.b &&& v.d) ||| (v.c &&& v.d)) + 0x8F1BBCDC)
    ∧ (60 ≤ t → t ≤ 79 → (roundUpdate v w t).a
        = v.a.rotateLeft 5 + v.e + w + (v.b ^^^ v.c ^^^ v.d) + 0xCA62C1D6)

/-- R79, R81: the derived exclusive-or forms of choose and majority. -/
def Obligations.RoundFunctionsHaveXorForms : Prop :=
  ∀ b c d : Word, choose b c d = (b &&& c) ^^^ (~~~b &&& d)
    ∧ majority b c d = (b &&& c) ^^^ (b &&& d) ^^^ (c &&& d)

/-- R87 (with R76, R77, R85): the in-place 16-word schedule is the 80-word schedule: for any X that meets R87's
recurrence, round `t` uses `X t`, and the step is the 80 rounds over X with the feed-forward. -/
def Obligations.InPlaceScheduleIsTheExpandedOne : Prop :=
  ∀ (h : Chaining) (block : Nat → Byte) (x : Nat → Word),
    (∀ t, t ≤ 15 → x t = be32 (block (4 * t)) (block (4 * t + 1)) (block (4 * t + 2)) (block (4 * t + 3))) →
    (∀ t, 16 ≤ t → t ≤ 79 → x t = rotl (x (t - 3) ^^^ x (t - 8) ^^^ x (t - 14) ^^^ x (t - 16)) 1) →
    (∀ t, t ≤ 79 → ((List.range (t + 1)).foldl scheduleStep (unpack block)).slot t = x t)
    ∧ ∃ v : Working, v = (List.range 80).foldl (fun v t => roundUpdate v (x t) t) ⟨h.h0, h.h1, h.h2, h.h3, h.h4⟩
      ∧ compress h block = ⟨h.h0 + v.a, h.h1 + v.b, h.h2 + v.c, h.h3 + v.d, h.h4 + v.e⟩

/-- R75: the compression step reads H and the block's 64 bytes and nothing else. -/
def Obligations.CompressReadsOnlyItsBlock : Prop :=
  ∀ (h : Chaining) (b₁ b₂ : Nat → Byte), (∀ i, i < 64 → b₁ i = b₂ i) → compress h b₁ = compress h b₂

/-- R9, R10: the rotation is circular, and packing four bytes and unpacking them are inverse. -/
def Obligations.RotationAndPackingAreInvertible : Prop :=
  (∀ (x : Word) (n : Nat), 0 < n → n < 32 → rotl x n = x.rotateLeft n)
  ∧ (∀ b0 b1 b2 b3 : Byte, beBytes (be32 b0 b1 b2 b3) = [b0, b1, b2, b3])
  ∧ ∀ w : Word, be32 ((beBytes w).getD 0 0) ((beBytes w).getD 1 0) ((beBytes w).getD 2 0) ((beBytes w).getD 3 0) = w

/-! ### The counter and the message -/

/-- R47: the split counter is one 64-bit counter: UPDATE adds 1 modulo 2^64, and FINAL writes 8 times it modulo 2^64,
big-endian, at addresses 56 to 63. -/
def Obligations.SplitCounterIsOneCounter : Prop :=
  ∀ s : State, s.blk.wf = true → s.phase = .absorbing →
    (∀ x : Byte, ∃ t, exec (.update x) s = .next t ∧ t.count64 = (s.count64 + 1) % 2 ^ 64)
    ∧ ∃ t, exec .final s = .next t
      ∧ (List.range 8).foldl (fun n i => 256 * n + (t.blk.read (56 + i)).toNat) 0 = 8 * s.count64 % 2 ^ 64

/-- R69: the two length words are the bit length modulo 2^64. -/
def Obligations.LengthWordsAreTheBitLength : Prop :=
  ∀ hi lo : Word,
    (lengthHi hi lo).toNat * 2 ^ 32 + (lengthLo lo).toNat = 8 * (hi.toNat * 2 ^ 32 + lo.toNat) % 2 ^ 64

/-- R65: the source's multi-byte update equals its bytes' UPDATEs in order, and updates of two parts equal one of the
whole. -/
def Obligations.ChunkingDoesNotMatter : Prop :=
  ∀ (s : State) (d₁ d₂ : List Byte), s.phase = .absorbing →
    (∃ t, execAll (updatesInstrs d₁) s = .next t ∧ t.sameMessage (s.updateSeq d₁)
      ∧ t.err = s.err ∧ t.errCause = s.errCause)
    ∧ (s.updateSeq d₁).updateSeq d₂ = s.updateSeq (d₁ ++ d₂)

/-- R71, R72 (with R57, R118, R122): from any state, HASH m computes SHA-1 of the padded message, in the number of
compressions R72 gives, raises nothing, and its five last reads return the digest. -/
def Obligations.HashRunReturnsTheDigest : Prop :=
  ∀ (s : State) (m : List Byte), ∃ t,
    runAccesses ((hashInstrs m).map (encode s.baseIndex)) s = .next t
    ∧ t.phase = .done ∧ t.h = sha1 m ∧ t.err = s.err ∧ t.errCause = s.errCause
    ∧ t.count64 = m.length % 2 ^ 64 ∧ t.pc = s.pc + m.length + 7
    ∧ (returnedBy ((hashInstrs m).map (encode s.baseIndex)) s).drop (m.length + 2)
      = [some (sha1 m).h0, some (sha1 m).h1, some (sha1 m).h2, some (sha1 m).h3, some (sha1 m).h4]
    ∧ (paddedMessage m).length = 64 * (m.length / 64 + if m.length % 64 ≤ 55 then 1 else 2)

/-- R37: the digest is 20 bytes, byte `k` being byte `k mod 4`, most significant first, of word `k div 4`. -/
def Obligations.DigestIsSerializedBigEndian : Prop :=
  ∀ c : Chaining, c.digestBytes.length = 20
    ∧ (∀ k, k < 20 → (c.digestBytes.getD k 0).toNat
      = ([c.h0, c.h1, c.h2, c.h3, c.h4].getD (k / 4) 0).toNat / 256 ^ (3 - k % 4) % 256)
    ∧ c.digestBytes = serialize [c.h0, c.h1, c.h2, c.h3, c.h4]

/-! ### The whole machine -/

/-- The invariant holds after reset. -/
def Obligations.ResetMeetsTheInvariant : Prop := State.reset.Inv

/-- Every step keeps the invariant: the buffer's canonical form, ERRCAUSE zero exactly while ERR is 0 and never 6 or 7,
and 0 or nothing returned by an access that raised. -/
def Obligations.EveryStepKeepsTheInvariant : Prop :=
  ∀ s t : State, s.Inv → step s = .next t → t.Inv

/-- R27: `pc` starts at 0 and every access advances it by 1, whatever its outcome; and no access stops the machine. -/
def Obligations.EveryAccessCompletesAndAdvancesPc : Prop :=
  State.reset.pc = 0 ∧ ∀ (s : State) (a : Access) (rest : List HostEvent),
    s.host = .access a :: rest → a.selects s.baseIndex = true →
    ∃ t, step s = .next t ∧ t.pc = s.pc + 1 ∧ t.host = rest ∧ t.baseIndex = s.baseIndex

/-- R13, R14, R16, R17: each register has the writers the rules name: a read writes no data register, INIT and UPDATE
alone write the counter, INIT, UPDATE and FINAL alone write H and BLK, INIT and FINAL alone write PHASE. -/
def Obligations.RegistersHaveTheirWriters : Prop :=
  ∀ (i : Instr) (s t : State), exec i s = .next t →
    (t.h ≠ s.h ∨ t.blk ≠ s.blk → i = .init ∨ (∃ x, i = .update x) ∨ i = .final)
    ∧ (t.cntLo ≠ s.cntLo ∨ t.cntHi ≠ s.cntHi → i = .init ∨ ∃ x, i = .update x)
    ∧ (t.phase ≠ s.phase → i = .init ∨ i = .final)
    ∧ t.pc = s.pc ∧ t.baseIndex = s.baseIndex ∧ t.host = s.host

/-- R20: UNINIT is entered by reset only, ABSORBING by INIT only, DONE by FINAL from ABSORBING only. -/
def Obligations.PhaseChangesOnlyAsItsTableSays : Prop :=
  ∀ (s t : State) (e : HostEvent) (rest : List HostEvent), s.host = e :: rest → step s = .next t →
    t.phase ≠ s.phase →
    (t.phase = .uninit → e = .reset)
    ∧ (t.phase = .absorbing → ∃ a, e = .access a ∧ decode a = .ok .init)
    ∧ (t.phase = .done → s.phase = .absorbing ∧ ∃ a, e = .access a ∧ decode a = .ok .final)

/-- R71, R123: in DONE, H, the counter and PHASE stay until the next INIT, whatever other accesses come. -/
def Obligations.DigestStaysUntilTheNextInit : Prop :=
  ∀ (as : List Access) (s : State), s.phase = .done → (∀ a ∈ as, decode a ≠ .ok .init) →
    ∃ t, runAccesses as s = .next t ∧ t.sameMessage s

/-- R120: a read right after a command sees the command's full effect, for every command and every read in every phase:
what it returns is what the read returns in the state the command leaves. Then the values themselves: STATUS after each
command, the count after INIT and UPDATE and FINAL, the digest after FINAL. -/
def Obligations.ReadsSeeTheCommandBeforeThem : Prop :=
  (∀ (s : State) (i r : Instr), ¬ i.isRead → r.isRead →
    ∃ t u, exec i s = .next t ∧ exec r t = .next u ∧ s.readAfter i r = [none, u.rdata])
  ∧ (∀ s : State,
    s.readAfter .init .rdStatus = [none, some (s.statusWord 1)]
    ∧ s.readAfter .init .rdCountLo = [none, some 0] ∧ s.readAfter .init .rdCountHi = [none, some 0])
  ∧ ∀ s : State, s.phase = .absorbing →
    (∀ x : Byte,
      s.readAfter (.update x) .rdStatus = [none, some (s.statusWord 1)]
      ∧ s.readAfter (.update x) .rdCountLo = [none, some (s.cntLo + 1)]
      ∧ s.readAfter (.update x) .rdCountHi
        = [none, some (if s.cntLo.toNat = 2 ^ 32 - 1 then s.cntHi + 1 else s.cntHi)])
    ∧ s.readAfter .final .rdStatus = [none, some (s.statusWord 2)]
    ∧ s.readAfter .final .rdCountLo = [none, some s.cntLo] ∧ s.readAfter .final .rdCountHi = [none, some s.cntHi]
    ∧ ∃ t, exec .final s = .next t
      ∧ s.readAfter .final .rdDigest0 = [none, some t.h.h0] ∧ s.readAfter .final .rdDigest1 = [none, some t.h.h1]
      ∧ s.readAfter .final .rdDigest2 = [none, some t.h.h2] ∧ s.readAfter .final .rdDigest3 = [none, some t.h.h3]
      ∧ s.readAfter .final .rdDigest4 = [none, some t.h.h4]

/-- R41: the state after a sequence of accesses is the left fold of the per-access rules over it. -/
def Obligations.RunIsALeftFold : Prop :=
  ∀ (as : List Access) (s : State), runAccesses as s = .next (as.foldl afterAccess { s with host := [] })

/-- R26, R116: what H, BLK, CNTLO and CNTHI hold in UNINIT cannot be observed: two states that differ there only return
the same values to every sequence of the host's events. (The raw bits after reset are the model's choice, log 1; this
statement holds whatever they are.) -/
def Obligations.RegistersWithoutValueAreUnobservable : Prop :=
  ∀ (s₁ s₂ : State) (k : Nat), s₁.phase = .uninit → s₁.sameOutside s₂ →
    returned k s₁ = returned k s₂ ∧ faults k s₁ = faults k s₂

/-- R73, I9: the bytes of BLK from FILL on, in ABSORBING, and every byte of BLK in DONE cannot be observed. -/
def Obligations.StaleBytesAreUnobservable : Prop :=
  (∀ (s : State) (m : Memory) (k : Nat), s.phase = .absorbing → s.blk.wf = true → m.wf = true →
    (∀ i, i < s.cntLo.toNat % 64 → m.read i = s.blk.read i) →
    returned k { s with blk := m } = returned k s ∧ faults k { s with blk := m } = faults k s)
  ∧ ∀ (s : State) (m : Memory) (k : Nat), s.phase = .done →
    returned k { s with blk := m } = returned k s ∧ faults k { s with blk := m } = faults k s

/-- R30, R32, R113: two blocks at different BASE are never both selected, and an access outside a block's window
changes nothing of the block. The model's choices here, no rules of the spec: an access is placed by its first address,
so that one which begins before the window and reaches into it lies outside (log 11), and an access outside is passed
over (log 8). -/
def Obligations.AccessesElsewhereDoNotReachTheBlock : Prop :=
  (∀ (a : Access) (j k : Nat), a.selects j = true → a.selects k = true → j = k)
  ∧ (∀ (a : Access) (k : Nat), a.selects k = true ↔ 256 * k ≤ a.addr ∧ a.addr < 256 * k + 256)
  ∧ ∀ (s : State) (a : Access) (rest : List HostEvent), s.host = .access a :: rest →
    a.selects s.baseIndex = false → step s = .next { s with host := rest }

/-- The model's choices at the boundary (log 4, log 6): an idle block keeps its state, and the two events whose runs the
spec says nothing of are refused by name. -/
def Obligations.IdleAndUnspecifiedEvents : Prop :=
  (∀ s : State, s.host = [] → step s = .next s)
  ∧ (∀ (s : State) (a : Access) (rest : List HostEvent), s.host = .resetDuring a :: rest →
      step s = .refused .resetDuringAccess)
  ∧ (∀ (s : State) (a : Access) (rest : List HostEvent), s.host = .interleaved a :: rest →
      step s = .refused .interleavedMaster)
  ∧ ∀ (s : State) (e : HostEvent) (rest : List HostEvent), s.host = e :: rest → e.specified = true →
    ∃ t, step s = .next t ∧ t.host = rest

/-! ### The assembler -/

/-- R55 to R58: the accesses of every line of assembly, the operand the assembler rejects, and the expansions. (The
operands of WR and RD are an offset of the window and a 32-bit value; what becomes of others is the model's choice,
log 14, and not stated.) -/
def Obligations.AssemblerEmitsTheEncodings : Prop :=
  ∀ k : Nat,
    assembleLine k .init = some [.write (256 * k) 4 0x00000001]
    ∧ (∀ b, b ≤ 255 → assembleLine k (.update b) = some [.write (256 * k) 4 (BitVec.ofNat 32 (0x00000002 + 256 * b))])
    ∧ (∀ b, 255 < b → assembleLine k (.update b) = none)
    ∧ assembleLine k .final = some [.write (256 * k) 4 0x00000003]
    ∧ assembleLine k (.rd .status) = some [.read (256 * k + 0x04) 4]
    ∧ assembleLine k (.rd .countLo) = some [.read (256 * k + 0x08) 4]
    ∧ assembleLine k (.rd .countHi) = some [.read (256 * k + 0x0C) 4]
    ∧ assembleLine k (.rd .digest0) = some [.read (256 * k + 0x10) 4]
    ∧ assembleLine k (.rd .digest1) = some [.read (256 * k + 0x14) 4]
    ∧ assembleLine k (.rd .digest2) = some [.read (256 * k + 0x18) 4]
    ∧ assembleLine k (.rd .digest3) = some [.read (256 * k + 0x1C) 4]
    ∧ assembleLine k (.rd .digest4) = some [.read (256 * k + 0x20) 4]
    ∧ (∀ off v, off < 256 → v < 2 ^ 32 →
      assembleLine k (.wrRaw off v) = some [.write (256 * k + off) 4 (BitVec.ofNat 32 v)])
    ∧ (∀ off, off < 256 → assembleLine k (.rdRaw off) = some [.read (256 * k + off) 4])
    ∧ assembleLine k (.updates []) = some []
    ∧ (∀ b s, assembleLine k (.updates (b :: s))
        = (assembleLine k (.update b)).bind fun x => (assembleLine k (.updates s)).map (x ++ ·))
    ∧ assembleLine k .rdDigest
      = assemble k [.rd .digest0, .rd .digest1, .rd .digest2, .rd .digest3, .rd .digest4]
    ∧ (∀ s, assembleLine k (.hash s) = assemble k [.init, .updates s, .final, .rdDigest])

/-- R55, R56: the text of operands and comments: text after a semicolon says nothing (outside quotes), a number is
decimal or, after 0x, hexadecimal, a character in single quotes stands for its ASCII code, and a double-quoted ASCII
string is the sequence of its characters' codes. Two points are the model's choice, left open by R55 and R56 (log 14):
that hexadecimal digits may be in lower case, and that a string has no escapes, so that a backslash in it is a character
like any other. -/
def Obligations.AssemblerReadsOperandText : Prop :=
  (∀ line comment : List Char, (∀ c ∈ line, c ≠ ';' ∧ c ≠ singleQuote ∧ c ≠ doubleQuote) →
    parseLine (line ++ ';' :: comment) = parseLine line)
  ∧ (∀ ds : List Nat, ds ≠ [] → (∀ d ∈ ds, d < 10) →
    parseNumber (ds.map Nat.digitChar) = some (ds.foldl (fun n d => 10 * n + d) 0))
  ∧ (∀ ds : List Nat, ds ≠ [] → (∀ d ∈ ds, d < 16) →
    parseNumber ('0' :: 'x' :: ds.map Nat.digitChar) = some (ds.foldl (fun n d => 16 * n + d) 0))
  ∧ (∀ c : Char, c.toNat < 128 → parseByte [singleQuote, c, singleQuote] = some c.toNat)
  ∧ ∀ cs : List Char, (∀ c ∈ cs, c.toNat < 128 ∧ c ≠ doubleQuote) →
    parseBytes (doubleQuote :: cs ++ [doubleQuote]) = some (cs.map Char.toNat)

/-- The text of a list and of upper-case hexadecimal digits, as the model reads them. That digits may be in upper case,
and how a bracketed list writes and separates its bytes, is the model's choice, left open by R55 and R56 (log 14):
elements are numbers or quoted characters, separated by commas, with blanks around them dropped, and a quoted comma is an
element. -/
def Obligations.AssemblerReadsListText : Prop :=
  (∀ ds : List Nat, ds ≠ [] → (∀ d ∈ ds, d < 16) →
    parseNumber ('0' :: 'x' :: ds.map fun d => (Nat.digitChar d).toUpper) = some (ds.foldl (fun n d => 16 * n + d) 0))
  ∧ (∀ cs : List Char, (∀ c ∈ cs, c.toNat < 128) →
    parseBytes ('[' :: [',', ' '].intercalate (cs.map fun c => [singleQuote, c, singleQuote]) ++ [']'])
      = some (cs.map Char.toNat))
  ∧ ∀ ns : List (List Nat), (∀ ds ∈ ns, ds ≠ [] ∧ ∀ d ∈ ds, d < 10) →
    parseBytes ('[' :: [',', ' '].intercalate (ns.map fun ds => ds.map Nat.digitChar) ++ [']'])
      = some (ns.map fun ds => ds.foldl (fun n d => 10 * n + d) 0)
end

