-- ==== Sys2Proof/Laws/Compress.lean ====
section
/-! SUPPORT. The schedule's slots, as unpacking fills them and a schedule step changes them. -/

namespace Sys2Proof.Machine

/-- A slot is named by its round modulo 16. -/
theorem Schedule.slot_mod (w : Schedule) (t : Nat) : w.slot (t % 16) = w.slot t := by
  simp [Schedule.slot]

/-- R76: the slot of round `t`, for t <= 15, after unpacking. -/
theorem unpack_slot (block : Nat → Byte) {t : Nat} (h : t < 16) :
    (unpack block).slot t
      = be32 (block (4 * t)) (block (4 * t + 1)) (block (4 * t + 2)) (block (4 * t + 3)) := by
  simp [Schedule.slot, unpack, Nat.mod_eq_of_lt h]

/-- R78: no schedule step before round 16. -/
theorem scheduleStep_of_lt (w : Schedule) {t : Nat} (h : t < 16) : scheduleStep w t = w := by
  rw [scheduleStep, if_neg (by omega)]

/-- R78: the slots after a schedule step. -/
theorem scheduleStep_slot (w : Schedule) {t : Nat} (h : 16 ≤ t) (u : Nat) :
    (scheduleStep w t).slot u
      = if u % 16 = t % 16 then
          rotl (w.slot (t - 3) ^^^ w.slot (t - 8) ^^^ w.slot (t - 14) ^^^ w.slot t) 1
        else w.slot u := by
  rw [scheduleStep, if_pos h, Schedule.slot, Vector.getElem_set]
  simp only [eq_comm (a := t % 16)]
  rfl

/-- R86 as one equation, to rewrite with (comparing two compressed states would run the rounds). -/
theorem compress_def (h : Chaining) (block : Nat → Byte) :
    compress h block
      = feedForward h ((List.range Config.rounds).foldl compressRound (unpack block, workingOf h)).2 := by
  unfold compress
  with_reducible rfl

/-- The schedule of a round does not depend on the working variables. -/
theorem compressRound_schedule (p : Schedule × Working) (t : Nat) : (compressRound p t).1 = scheduleStep p.1 t := rfl

/-- R84: the working variables of a round, from the slot the schedule step leaves. -/
theorem compressRound_working (p : Schedule × Working) (t : Nat) :
    (compressRound p t).2 = roundUpdate p.2 ((scheduleStep p.1 t).slot t) t := rfl

end Sys2Proof.Machine
end

