-- ==== Sys2Proof/Laws/Decode.lean ====
section
/-! SUPPORT. Inversions of the decoder. -/

namespace Sys2Proof

/-- R51: a word is decoded to a command exactly when it is legal. -/
theorem decodeCommand_cases (v : Word) :
    (legal v = false ∧ decodeCommand v = .error .illegalCmd) ∨
    (legal v = true ∧ cmdOp v = 0x01 ∧ decodeCommand v = .ok .init) ∨
    (legal v = true ∧ cmdOp v = 0x02 ∧ decodeCommand v = .ok (.update (cmdData v))) ∨
    (legal v = true ∧ cmdOp v = 0x03 ∧ decodeCommand v = .ok .final) := by
  by_cases hl : legal v = true
  · have h3 : cmdOp v = 0x01 ∨ cmdOp v = 0x02 ∨ cmdOp v = 0x03 := by
      simp only [legal, Bool.or_eq_true, Bool.and_eq_true, beq_iff_eq] at hl
      tauto
    right
    rcases h3 with h | h | h <;> simp [decodeCommand, hl, h]
  · left
    exact ⟨by simpa using hl, by simp [decodeCommand, hl]⟩

/-- R52: the shape check comes before everything else. -/
theorem decode_of_not_wellShaped {a : Access} (h : a.wellShaped = false) : decode a = .error .badAccess := by
  simp [decode, h]

/-- R52: a decoded access is well shaped. -/
theorem wellShaped_of_decode {a : Access} {i : Instr} (h : decode a = .ok i) : a.wellShaped = true := by
  by_contra hw
  rw [decode_of_not_wellShaped (by simpa using hw)] at h
  cases h

/-- R52: a well-shaped write. -/
theorem decode_write {addr size : Nat} {v : Word} (h : (Access.write addr size v).wellShaped = true) :
    decode (.write addr size v)
      = if (Access.write addr size v).off == 0x00 then decodeCommand v else .error .badAccess := by
  simp [decode, h]

/-- R52: a well-shaped read. -/
theorem decode_read {addr size : Nat} (h : (Access.read addr size).wellShaped = true) :
    decode (.read addr size) = decodeRead (Access.read addr size).off := by
  simp [decode, h]

end Sys2Proof
end

