-- ==== Sys2Proof/Laws/Memory.lean ====
section
/-! SUPPORT. The block buffer: what a read returns after each write, and that every operation keeps the canonical
form. -/

namespace Sys2Proof.Machine

/-- The part of the canonical form the read laws need: addresses strictly rising. -/
def Memory.Rising (m : Memory) : Prop := m.Pairwise fun c d => c.1 < d.1

theorem Memory.wf_iff (m : Memory) :
    m.wf = true ↔ (∀ c ∈ m, c.1 < Config.blockBytes ∧ c.2 ≠ Config.unlistedByte) ∧ Memory.Rising m := by
  simp [Memory.wf, Memory.Rising]

theorem Memory.rising_of_wf {m : Memory} (h : m.wf = true) : Memory.Rising m := (Memory.wf_iff m |>.mp h).2

@[simp] theorem Memory.wf_nil : Memory.wf [] = true := by decide

@[simp] theorem Memory.wf_cleared : Memory.cleared.wf = true := by decide

@[simp] theorem Memory.read_nil (i : Nat) : Memory.read [] i = Config.unlistedByte := rfl

@[simp] theorem Memory.read_cleared (i : Nat) : Memory.read Memory.cleared i = 0 := rfl

theorem Memory.read_cons (c : Host.Cell) (m : Memory) (i : Nat) :
    Memory.read (c :: m) i = if c.1 = i then c.2 else Memory.read m i := rfl

/-- An address below every listed one reads as unlisted. -/
theorem Memory.read_of_lt {m : Memory} {i : Nat} (h : ∀ c ∈ m, i < c.1) :
    Memory.read m i = Config.unlistedByte := by
  induction m with
  | nil => rfl
  | cons c m ih =>
    have hc := h c (by simp)
    rw [Memory.read_cons, if_neg (by omega), ih fun d hd => h d (by simp [hd])]

/-- `Memory.cons` reads as the pair it stands for, over a memory that lists only higher addresses. -/
theorem Memory.read_cons' {m : Memory} {i : Nat} (v : Byte) (h : ∀ c ∈ m, i < c.1) (j : Nat) :
    (Memory.cons i v m).read j = if j = i then v else m.read j := by
  unfold Memory.cons
  split
  · next hv =>
    split
    · next hj => rw [hj, Memory.read_of_lt h, hv]
    · rfl
  · simp [Memory.read_cons, eq_comm]

/-- Read after write (R11): the written address gives the written byte, every other address is left alone. -/
theorem Memory.read_write {m : Memory} (h : Memory.Rising m) (i j : Nat) (v : Byte) :
    (m.write i v).read j = if j = i then v else m.read j := by
  induction m with
  | nil => exact Memory.read_cons' v (by simp) j
  | cons c m ih =>
    obtain ⟨hc, hm⟩ := List.pairwise_cons.mp h
    unfold Memory.write
    split
    · next hlt =>
      refine Memory.read_cons' v (fun d hd => ?_) j
      rcases List.mem_cons.mp hd with rfl | hd
      · exact hlt
      · exact hlt.trans (hc d hd)
    · split
      · next heq =>
        rw [Memory.read_cons' v (fun d hd => heq ▸ hc d hd), Memory.read_cons]
        split
        · rfl
        · rw [if_neg (by omega)]
      · rw [Memory.read_cons, Memory.read_cons, ih hm]
        split
        · next hne hcj => rw [if_neg (by omega)]
        · rfl

/-- Every cell of a written memory is the written one or was there. -/
theorem Memory.mem_write {m : Memory} {i : Nat} {v : Byte} {d : Host.Cell} (h : d ∈ m.write i v) :
    d = (i, v) ∧ v ≠ Config.unlistedByte ∨ d ∈ m := by
  have mem_cons' : ∀ {m : Memory}, d ∈ Memory.cons i v m → d = (i, v) ∧ v ≠ Config.unlistedByte ∨ d ∈ m := by
    intro m h
    unfold Memory.cons at h
    split at h
    · exact .inr h
    · rcases List.mem_cons.mp h with h | h
      · exact .inl ⟨h, ‹_›⟩
      · exact .inr h
  induction m with
  | nil => exact mem_cons' h
  | cons c m ih =>
    unfold Memory.write at h
    split at h
    · exact mem_cons' h
    · split at h
      · exact (mem_cons' h).imp_right (by simp +contextual)
      · rcases List.mem_cons.mp h with h | h
        · exact .inr (by simp [h])
        · exact (ih h).imp_right (by simp +contextual)

theorem Memory.write_rising {m : Memory} (h : Memory.Rising m) (i : Nat) (v : Byte) :
    Memory.Rising (m.write i v) := by
  have cons_rising : ∀ {m : Memory}, Memory.Rising m → (∀ c ∈ m, i < c.1) → Memory.Rising (Memory.cons i v m) := by
    intro m hm hi
    unfold Memory.cons
    split
    · exact hm
    · exact List.pairwise_cons.mpr ⟨hi, hm⟩
  induction m with
  | nil => exact cons_rising h (by simp)
  | cons c m ih =>
    obtain ⟨hc, hm⟩ := List.pairwise_cons.mp h
    unfold Memory.write
    split
    · next hlt =>
      refine cons_rising h fun d hd => ?_
      rcases List.mem_cons.mp hd with rfl | hd
      · exact hlt
      · exact hlt.trans (hc d hd)
    · split
      · next heq => exact cons_rising hm fun d hd => heq ▸ hc d hd
      · refine List.pairwise_cons.mpr ⟨fun d hd => ?_, ih hm⟩
        rcases Memory.mem_write hd with ⟨rfl, -⟩ | hd
        · simp only; omega
        · exact hc d hd

/-- A write inside the buffer keeps the canonical form. -/
theorem Memory.write_wf {m : Memory} (h : m.wf = true) {i : Nat} (hi : i < Config.blockBytes) (v : Byte) :
    (m.write i v).wf = true := by
  rw [Memory.wf_iff] at h ⊢
  refine ⟨fun d hd => ?_, Memory.write_rising h.2 i v⟩
  rcases Memory.mem_write hd with ⟨rfl, hv⟩ | hd
  · exact ⟨hi, hv⟩
  · exact h.1 d hd

/-- A run of single-byte writes of one value. -/
theorem Memory.foldl_write_spec (v : Byte) (n : Nat) : ∀ (lo : Nat) {m : Memory}, Memory.Rising m →
    Memory.Rising ((List.range' lo n).foldl (fun m j => m.write j v) m) ∧
    ∀ j, Memory.read ((List.range' lo n).foldl (fun m j => m.write j v) m) j
      = if lo ≤ j ∧ j < lo + n then v else m.read j := by
  induction n with
  | zero => intro lo m h; exact ⟨h, fun j => by rw [if_neg (by omega)]; rfl⟩
  | succ n ih =>
    intro lo m h
    rw [List.range'_succ, List.foldl_cons]
    obtain ⟨h1, h2⟩ := ih (lo + 1) (Memory.write_rising h lo v)
    refine ⟨h1, fun j => ?_⟩
    rw [h2, Memory.read_write h]
    split_ifs <;> first | rfl | omega

/-- Reading after a fill (R11's inclusive loop). -/
theorem Memory.read_fill {m : Memory} (h : Memory.Rising m) (lo hi j : Nat) (v : Byte) :
    (m.fill lo hi v).read j = if lo ≤ j ∧ j ≤ hi then v else m.read j := by
  rw [Memory.fill, (Memory.foldl_write_spec v _ lo h).2]
  split_ifs <;> first | rfl | omega

theorem Memory.fill_wf {m : Memory} (h : m.wf = true) (lo : Nat) {hi : Nat} (hhi : hi < Config.blockBytes)
    (v : Byte) : (m.fill lo hi v).wf = true := by
  unfold Memory.fill
  suffices ∀ (js : List Nat), (∀ j ∈ js, j < Config.blockBytes) → ∀ m : Memory, m.wf = true →
      Memory.wf (js.foldl (fun m j => m.write j v) m) = true from
    this _ (fun j hj => by rw [List.mem_range'_1] at hj; omega) m h
  intro js
  induction js with
  | nil => exact fun _ m h => h
  | cons j js ih =>
    intro hjs m h
    exact ih (fun k hk => hjs k (by simp [hk])) _ (Memory.write_wf h (hjs j (by simp)) v)

theorem Memory.writeBytes_rising {m : Memory} (h : Memory.Rising m) (i : Nat) (bytes : List Byte) :
    Memory.Rising (m.writeBytes i bytes) := by
  induction bytes generalizing m i with
  | nil => exact h
  | cons b rest ih => exact ih (Memory.write_rising h i b) (i + 1)

/-- Reading after writing bytes at consecutive addresses (R36). -/
theorem Memory.read_writeBytes {m : Memory} (h : Memory.Rising m) (i : Nat) (bytes : List Byte) (j : Nat) :
    (m.writeBytes i bytes).read j
      = if i ≤ j ∧ j < i + bytes.length then bytes.getD (j - i) 0 else m.read j := by
  induction bytes generalizing m i with
  | nil =>
    rw [if_neg (by simp)]
    rfl
  | cons b rest ih =>
    rw [Memory.writeBytes, ih (Memory.write_rising h i b) (i + 1), Memory.read_write h]
    by_cases hj : j = i
    · subst hj
      simp
    · by_cases hlo : i + 1 ≤ j
      · have : j - i = (j - (i + 1)) + 1 := by omega
        simp only [this, List.getD_cons_succ, List.length_cons, hj, if_false]
        split_ifs <;> first | rfl | omega
      · rw [if_neg (by omega), if_neg hj, if_neg (by simp; omega)]

theorem Memory.writeBytes_wf {m : Memory} (h : m.wf = true) (i : Nat) (bytes : List Byte)
    (hi : i + bytes.length ≤ Config.blockBytes) : (m.writeBytes i bytes).wf = true := by
  induction bytes generalizing m i with
  | nil => exact h
  | cons b rest ih =>
    have : i + (rest.length + 1) ≤ Config.blockBytes := hi
    exact ih (Memory.write_wf h (by omega) b) (i + 1) (by omega)

/-- A copy that starts where another one ended continues it. -/
theorem Memory.writeBytes_append (m : Memory) (i : Nat) (xs ys : List Byte) :
    m.writeBytes i (xs ++ ys) = (m.writeBytes i xs).writeBytes (i + xs.length) ys := by
  induction xs generalizing m i with
  | nil => rfl
  | cons x xs ih =>
    rw [List.cons_append, Memory.writeBytes, ih, Memory.writeBytes, List.length_cons]
    congr 1
    omega

/-- Equal memories are equal data: a canonical memory is determined by what its addresses read as. -/
theorem Memory.ext_of_read {m n : Memory} (hm : m.wf = true) (hn : n.wf = true)
    (hr : ∀ i < Config.blockBytes, m.read i = n.read i) : m = n := by
  have tail_wf : ∀ {c : Host.Cell} {m : Memory}, Memory.wf (c :: m) = true → Memory.wf m = true := by
    intro c m h
    rw [Memory.wf_iff] at h ⊢
    exact ⟨fun d hd => h.1 d (by simp [hd]), (List.pairwise_cons.mp h.2).2⟩
  have head : ∀ {c : Host.Cell} {m : Memory}, Memory.wf (c :: m) = true →
      c.1 < Config.blockBytes ∧ c.2 ≠ Config.unlistedByte ∧ (∀ d ∈ m, c.1 < d.1) := by
    intro c m h
    rw [Memory.wf_iff] at h
    exact ⟨(h.1 c (by simp)).1, (h.1 c (by simp)).2, (List.pairwise_cons.mp h.2).1⟩
  induction m generalizing n with
  | nil =>
    cases n with
    | nil => rfl
    | cons d n =>
      obtain ⟨h1, h2, -⟩ := head hn
      have := hr d.1 h1
      rw [Memory.read_nil, Memory.read_cons, if_pos rfl] at this
      exact absurd this.symm h2
  | cons c m ih =>
    obtain ⟨hc1, hc2, hc3⟩ := head hm
    cases n with
    | nil =>
      have := hr c.1 hc1
      rw [Memory.read_nil, Memory.read_cons, if_pos rfl] at this
      exact absurd this hc2
    | cons d n =>
      obtain ⟨hd1, hd2, hd3⟩ := head hn
      have hcd : c.1 = d.1 := by
        rcases Nat.lt_trichotomy c.1 d.1 with hlt | heq | hlt
        · have := hr c.1 hc1
          rw [Memory.read_cons, if_pos rfl, Memory.read_cons, if_neg (by omega),
            Memory.read_of_lt fun e he => hlt.trans (hd3 e he)] at this
          exact absurd this hc2
        · exact heq
        · have := hr d.1 hd1
          rw [Memory.read_cons, if_neg (by omega), Memory.read_cons, if_pos rfl,
            Memory.read_of_lt fun e he => hlt.trans (hc3 e he)] at this
          exact absurd this.symm hd2
      have hv : c.2 = d.2 := by
        have := hr c.1 hc1
        rwa [Memory.read_cons, if_pos rfl, Memory.read_cons, if_pos hcd.symm] at this
      rw [Prod.ext hcd hv, ih (tail_wf hm) (tail_wf hn) fun i hi => ?_]
      have := hr i hi
      rw [Memory.read_cons, Memory.read_cons] at this
      by_cases hi' : c.1 = i
      · rw [Memory.read_of_lt fun e he => hi' ▸ hc3 e he,
          Memory.read_of_lt fun e he => (hi' ▸ hcd) ▸ hd3 e he]
      · rwa [if_neg hi', if_neg (by omega)] at this

end Sys2Proof.Machine
end

