-- ==== Sys2Proof/Laws/State.lean ====
section
/-! SUPPORT. One lemma per field per update of State, so that no later proof unfolds a record update. They are proved
`by rfl` (and so rewrite, rather than ask the kernel to compare two states): comparing a compressed H with another would
run the 80 rounds on variables. -/

namespace Sys2Proof.Machine

@[simp] theorem State.setH_h (s : State) (h : Chaining) :
    (s.setH h).h = h := by rfl

@[simp] theorem State.setH_blk (s : State) (h : Chaining) :
    (s.setH h).blk = s.blk := by rfl

@[simp] theorem State.setH_cntLo (s : State) (h : Chaining) :
    (s.setH h).cntLo = s.cntLo := by rfl

@[simp] theorem State.setH_cntHi (s : State) (h : Chaining) :
    (s.setH h).cntHi = s.cntHi := by rfl

@[simp] theorem State.setH_phase (s : State) (h : Chaining) :
    (s.setH h).phase = s.phase := by rfl

@[simp] theorem State.setH_err (s : State) (h : Chaining) :
    (s.setH h).err = s.err := by rfl

@[simp] theorem State.setH_errCause (s : State) (h : Chaining) :
    (s.setH h).errCause = s.errCause := by rfl

@[simp] theorem State.setH_pc (s : State) (h : Chaining) :
    (s.setH h).pc = s.pc := by rfl

@[simp] theorem State.setH_rdata (s : State) (h : Chaining) :
    (s.setH h).rdata = s.rdata := by rfl

@[simp] theorem State.setH_raised (s : State) (h : Chaining) :
    (s.setH h).raised = s.raised := by rfl

@[simp] theorem State.setH_baseIndex (s : State) (h : Chaining) :
    (s.setH h).baseIndex = s.baseIndex := by rfl

@[simp] theorem State.setH_host (s : State) (h : Chaining) :
    (s.setH h).host = s.host := by rfl

@[simp] theorem State.setBlk_h (s : State) (m : Memory) :
    (s.setBlk m).h = s.h := by rfl

@[simp] theorem State.setBlk_blk (s : State) (m : Memory) :
    (s.setBlk m).blk = m := by rfl

@[simp] theorem State.setBlk_cntLo (s : State) (m : Memory) :
    (s.setBlk m).cntLo = s.cntLo := by rfl

@[simp] theorem State.setBlk_cntHi (s : State) (m : Memory) :
    (s.setBlk m).cntHi = s.cntHi := by rfl

@[simp] theorem State.setBlk_phase (s : State) (m : Memory) :
    (s.setBlk m).phase = s.phase := by rfl

@[simp] theorem State.setBlk_err (s : State) (m : Memory) :
    (s.setBlk m).err = s.err := by rfl

@[simp] theorem State.setBlk_errCause (s : State) (m : Memory) :
    (s.setBlk m).errCause = s.errCause := by rfl

@[simp] theorem State.setBlk_pc (s : State) (m : Memory) :
    (s.setBlk m).pc = s.pc := by rfl

@[simp] theorem State.setBlk_rdata (s : State) (m : Memory) :
    (s.setBlk m).rdata = s.rdata := by rfl

@[simp] theorem State.setBlk_raised (s : State) (m : Memory) :
    (s.setBlk m).raised = s.raised := by rfl

@[simp] theorem State.setBlk_baseIndex (s : State) (m : Memory) :
    (s.setBlk m).baseIndex = s.baseIndex := by rfl

@[simp] theorem State.setBlk_host (s : State) (m : Memory) :
    (s.setBlk m).host = s.host := by rfl

@[simp] theorem State.setPhase_h (s : State) (p : Phase) :
    (s.setPhase p).h = s.h := by rfl

@[simp] theorem State.setPhase_blk (s : State) (p : Phase) :
    (s.setPhase p).blk = s.blk := by rfl

@[simp] theorem State.setPhase_cntLo (s : State) (p : Phase) :
    (s.setPhase p).cntLo = s.cntLo := by rfl

@[simp] theorem State.setPhase_cntHi (s : State) (p : Phase) :
    (s.setPhase p).cntHi = s.cntHi := by rfl

@[simp] theorem State.setPhase_phase (s : State) (p : Phase) :
    (s.setPhase p).phase = p := by rfl

@[simp] theorem State.setPhase_err (s : State) (p : Phase) :
    (s.setPhase p).err = s.err := by rfl

@[simp] theorem State.setPhase_errCause (s : State) (p : Phase) :
    (s.setPhase p).errCause = s.errCause := by rfl

@[simp] theorem State.setPhase_pc (s : State) (p : Phase) :
    (s.setPhase p).pc = s.pc := by rfl

@[simp] theorem State.setPhase_rdata (s : State) (p : Phase) :
    (s.setPhase p).rdata = s.rdata := by rfl

@[simp] theorem State.setPhase_raised (s : State) (p : Phase) :
    (s.setPhase p).raised = s.raised := by rfl

@[simp] theorem State.setPhase_baseIndex (s : State) (p : Phase) :
    (s.setPhase p).baseIndex = s.baseIndex := by rfl

@[simp] theorem State.setPhase_host (s : State) (p : Phase) :
    (s.setPhase p).host = s.host := by rfl

@[simp] theorem State.respond_h (s : State) (rd : Option Word) :
    (s.respond rd).h = s.h := by rfl

@[simp] theorem State.respond_blk (s : State) (rd : Option Word) :
    (s.respond rd).blk = s.blk := by rfl

@[simp] theorem State.respond_cntLo (s : State) (rd : Option Word) :
    (s.respond rd).cntLo = s.cntLo := by rfl

@[simp] theorem State.respond_cntHi (s : State) (rd : Option Word) :
    (s.respond rd).cntHi = s.cntHi := by rfl

@[simp] theorem State.respond_phase (s : State) (rd : Option Word) :
    (s.respond rd).phase = s.phase := by rfl

@[simp] theorem State.respond_err (s : State) (rd : Option Word) :
    (s.respond rd).err = s.err := by rfl

@[simp] theorem State.respond_errCause (s : State) (rd : Option Word) :
    (s.respond rd).errCause = s.errCause := by rfl

@[simp] theorem State.respond_pc (s : State) (rd : Option Word) :
    (s.respond rd).pc = s.pc := by rfl

@[simp] theorem State.respond_rdata (s : State) (rd : Option Word) :
    (s.respond rd).rdata = rd := by rfl

@[simp] theorem State.respond_raised (s : State) (rd : Option Word) :
    (s.respond rd).raised = none := by rfl

@[simp] theorem State.respond_baseIndex (s : State) (rd : Option Word) :
    (s.respond rd).baseIndex = s.baseIndex := by rfl

@[simp] theorem State.respond_host (s : State) (rd : Option Word) :
    (s.respond rd).host = s.host := by rfl

@[simp] theorem State.raise_h (s : State) (c : ErrCause) (rd : Option Word) :
    (s.raise c rd).h = s.h := by rfl

@[simp] theorem State.raise_blk (s : State) (c : ErrCause) (rd : Option Word) :
    (s.raise c rd).blk = s.blk := by rfl

@[simp] theorem State.raise_cntLo (s : State) (c : ErrCause) (rd : Option Word) :
    (s.raise c rd).cntLo = s.cntLo := by rfl

@[simp] theorem State.raise_cntHi (s : State) (c : ErrCause) (rd : Option Word) :
    (s.raise c rd).cntHi = s.cntHi := by rfl

@[simp] theorem State.raise_phase (s : State) (c : ErrCause) (rd : Option Word) :
    (s.raise c rd).phase = s.phase := by rfl

@[simp] theorem State.raise_err (s : State) (c : ErrCause) (rd : Option Word) :
    (s.raise c rd).err = true := by rfl

@[simp] theorem State.raise_errCause (s : State) (c : ErrCause) (rd : Option Word) :
    (s.raise c rd).errCause = if s.err then s.errCause else c.code := by rfl

@[simp] theorem State.raise_pc (s : State) (c : ErrCause) (rd : Option Word) :
    (s.raise c rd).pc = s.pc := by rfl

@[simp] theorem State.raise_rdata (s : State) (c : ErrCause) (rd : Option Word) :
    (s.raise c rd).rdata = rd := by rfl

@[simp] theorem State.raise_raised (s : State) (c : ErrCause) (rd : Option Word) :
    (s.raise c rd).raised = some c := by rfl

@[simp] theorem State.raise_baseIndex (s : State) (c : ErrCause) (rd : Option Word) :
    (s.raise c rd).baseIndex = s.baseIndex := by rfl

@[simp] theorem State.raise_host (s : State) (c : ErrCause) (rd : Option Word) :
    (s.raise c rd).host = s.host := by rfl

@[simp] theorem State.accept_h (s : State) :
    s.accept.h = s.h := by rfl

@[simp] theorem State.accept_blk (s : State) :
    s.accept.blk = s.blk := by rfl

@[simp] theorem State.accept_cntLo (s : State) :
    s.accept.cntLo = s.cntLo := by rfl

@[simp] theorem State.accept_cntHi (s : State) :
    s.accept.cntHi = s.cntHi := by rfl

@[simp] theorem State.accept_phase (s : State) :
    s.accept.phase = s.phase := by rfl

@[simp] theorem State.accept_err (s : State) :
    s.accept.err = s.err := by rfl

@[simp] theorem State.accept_errCause (s : State) :
    s.accept.errCause = s.errCause := by rfl

@[simp] theorem State.accept_pc (s : State) :
    s.accept.pc = s.pc + 1 := by rfl

@[simp] theorem State.accept_rdata (s : State) :
    s.accept.rdata = s.rdata := by rfl

@[simp] theorem State.accept_raised (s : State) :
    s.accept.raised = s.raised := by rfl

@[simp] theorem State.accept_baseIndex (s : State) :
    s.accept.baseIndex = s.baseIndex := by rfl

@[simp] theorem State.accept_host (s : State) :
    s.accept.host = s.host := by rfl

@[simp] theorem State.memWrite_h (s : State) (i : Nat) (v : Byte) :
    (s.memWrite i v).h = s.h := by rfl

@[simp] theorem State.memWrite_blk (s : State) (i : Nat) (v : Byte) :
    (s.memWrite i v).blk = s.blk.write i v := by rfl

@[simp] theorem State.memWrite_cntLo (s : State) (i : Nat) (v : Byte) :
    (s.memWrite i v).cntLo = s.cntLo := by rfl

@[simp] theorem State.memWrite_cntHi (s : State) (i : Nat) (v : Byte) :
    (s.memWrite i v).cntHi = s.cntHi := by rfl

@[simp] theorem State.memWrite_phase (s : State) (i : Nat) (v : Byte) :
    (s.memWrite i v).phase = s.phase := by rfl

@[simp] theorem State.memWrite_err (s : State) (i : Nat) (v : Byte) :
    (s.memWrite i v).err = s.err := by rfl

@[simp] theorem State.memWrite_errCause (s : State) (i : Nat) (v : Byte) :
    (s.memWrite i v).errCause = s.errCause := by rfl

@[simp] theorem State.memWrite_pc (s : State) (i : Nat) (v : Byte) :
    (s.memWrite i v).pc = s.pc := by rfl

@[simp] theorem State.memWrite_rdata (s : State) (i : Nat) (v : Byte) :
    (s.memWrite i v).rdata = s.rdata := by rfl

@[simp] theorem State.memWrite_raised (s : State) (i : Nat) (v : Byte) :
    (s.memWrite i v).raised = s.raised := by rfl

@[simp] theorem State.memWrite_baseIndex (s : State) (i : Nat) (v : Byte) :
    (s.memWrite i v).baseIndex = s.baseIndex := by rfl

@[simp] theorem State.memWrite_host (s : State) (i : Nat) (v : Byte) :
    (s.memWrite i v).host = s.host := by rfl

@[simp] theorem State.memFill_h (s : State) (lo hi : Nat) (v : Byte) :
    (s.memFill lo hi v).h = s.h := by rfl

@[simp] theorem State.memFill_blk (s : State) (lo hi : Nat) (v : Byte) :
    (s.memFill lo hi v).blk = s.blk.fill lo hi v := by rfl

@[simp] theorem State.memFill_cntLo (s : State) (lo hi : Nat) (v : Byte) :
    (s.memFill lo hi v).cntLo = s.cntLo := by rfl

@[simp] theorem State.memFill_cntHi (s : State) (lo hi : Nat) (v : Byte) :
    (s.memFill lo hi v).cntHi = s.cntHi := by rfl

@[simp] theorem State.memFill_phase (s : State) (lo hi : Nat) (v : Byte) :
    (s.memFill lo hi v).phase = s.phase := by rfl

@[simp] theorem State.memFill_err (s : State) (lo hi : Nat) (v : Byte) :
    (s.memFill lo hi v).err = s.err := by rfl

@[simp] theorem State.memFill_errCause (s : State) (lo hi : Nat) (v : Byte) :
    (s.memFill lo hi v).errCause = s.errCause := by rfl

@[simp] theorem State.memFill_pc (s : State) (lo hi : Nat) (v : Byte) :
    (s.memFill lo hi v).pc = s.pc := by rfl

@[simp] theorem State.memFill_rdata (s : State) (lo hi : Nat) (v : Byte) :
    (s.memFill lo hi v).rdata = s.rdata := by rfl

@[simp] theorem State.memFill_raised (s : State) (lo hi : Nat) (v : Byte) :
    (s.memFill lo hi v).raised = s.raised := by rfl

@[simp] theorem State.memFill_baseIndex (s : State) (lo hi : Nat) (v : Byte) :
    (s.memFill lo hi v).baseIndex = s.baseIndex := by rfl

@[simp] theorem State.memFill_host (s : State) (lo hi : Nat) (v : Byte) :
    (s.memFill lo hi v).host = s.host := by rfl

@[simp] theorem State.advanceCount_h (s : State) :
    s.advanceCount.h = s.h := by rfl

@[simp] theorem State.advanceCount_blk (s : State) :
    s.advanceCount.blk = s.blk := by rfl

@[simp] theorem State.advanceCount_cntLo (s : State) :
    s.advanceCount.cntLo = s.cntLo + 1 := by rfl

@[simp] theorem State.advanceCount_cntHi (s : State) :
    s.advanceCount.cntHi = if s.cntLo + 1 = 0 then s.cntHi + 1 else s.cntHi := by rfl

@[simp] theorem State.advanceCount_phase (s : State) :
    s.advanceCount.phase = s.phase := by rfl

@[simp] theorem State.advanceCount_err (s : State) :
    s.advanceCount.err = s.err := by rfl

@[simp] theorem State.advanceCount_errCause (s : State) :
    s.advanceCount.errCause = s.errCause := by rfl

@[simp] theorem State.advanceCount_pc (s : State) :
    s.advanceCount.pc = s.pc := by rfl

@[simp] theorem State.advanceCount_rdata (s : State) :
    s.advanceCount.rdata = s.rdata := by rfl

@[simp] theorem State.advanceCount_raised (s : State) :
    s.advanceCount.raised = s.raised := by rfl

@[simp] theorem State.advanceCount_baseIndex (s : State) :
    s.advanceCount.baseIndex = s.baseIndex := by rfl

@[simp] theorem State.advanceCount_host (s : State) :
    s.advanceCount.host = s.host := by rfl

@[simp] theorem State.writeLength_h (s : State) :
    s.writeLength.h = s.h := by rfl

@[simp] theorem State.writeLength_blk (s : State) :
    s.writeLength.blk = s.blk.writeBytes 56 (beBytes (lengthHi s.cntHi s.cntLo) ++ beBytes (lengthLo s.cntLo)) := by rfl

@[simp] theorem State.writeLength_cntLo (s : State) :
    s.writeLength.cntLo = s.cntLo := by rfl

@[simp] theorem State.writeLength_cntHi (s : State) :
    s.writeLength.cntHi = s.cntHi := by rfl

@[simp] theorem State.writeLength_phase (s : State) :
    s.writeLength.phase = s.phase := by rfl

@[simp] theorem State.writeLength_err (s : State) :
    s.writeLength.err = s.err := by rfl

@[simp] theorem State.writeLength_errCause (s : State) :
    s.writeLength.errCause = s.errCause := by rfl

@[simp] theorem State.writeLength_pc (s : State) :
    s.writeLength.pc = s.pc := by rfl

@[simp] theorem State.writeLength_rdata (s : State) :
    s.writeLength.rdata = s.rdata := by rfl

@[simp] theorem State.writeLength_raised (s : State) :
    s.writeLength.raised = s.raised := by rfl

@[simp] theorem State.writeLength_baseIndex (s : State) :
    s.writeLength.baseIndex = s.baseIndex := by rfl

@[simp] theorem State.writeLength_host (s : State) :
    s.writeLength.host = s.host := by rfl

@[simp] theorem State.hardwareReset_h (s : State) :
    s.hardwareReset.h = State.reset.h := by rfl

@[simp] theorem State.hardwareReset_blk (s : State) :
    s.hardwareReset.blk = [] := by rfl

@[simp] theorem State.hardwareReset_cntLo (s : State) :
    s.hardwareReset.cntLo = Config.unsetWord := by rfl

@[simp] theorem State.hardwareReset_cntHi (s : State) :
    s.hardwareReset.cntHi = Config.unsetWord := by rfl

@[simp] theorem State.hardwareReset_phase (s : State) :
    s.hardwareReset.phase = .uninit := by rfl

@[simp] theorem State.hardwareReset_err (s : State) :
    s.hardwareReset.err = false := by rfl

@[simp] theorem State.hardwareReset_errCause (s : State) :
    s.hardwareReset.errCause = 0 := by rfl

@[simp] theorem State.hardwareReset_pc (s : State) :
    s.hardwareReset.pc = s.pc := by rfl

@[simp] theorem State.hardwareReset_rdata (s : State) :
    s.hardwareReset.rdata = none := by rfl

@[simp] theorem State.hardwareReset_raised (s : State) :
    s.hardwareReset.raised = none := by rfl

@[simp] theorem State.hardwareReset_baseIndex (s : State) :
    s.hardwareReset.baseIndex = s.baseIndex := by rfl

@[simp] theorem State.hardwareReset_host (s : State) :
    s.hardwareReset.host = s.host := by rfl

@[simp] theorem State.startMessage_h (s : State) :
    s.startMessage.h = iv := by rfl

@[simp] theorem State.startMessage_blk (s : State) :
    s.startMessage.blk = [] := by rfl

@[simp] theorem State.startMessage_cntLo (s : State) :
    s.startMessage.cntLo = 0 := by rfl

@[simp] theorem State.startMessage_cntHi (s : State) :
    s.startMessage.cntHi = 0 := by rfl

@[simp] theorem State.startMessage_phase (s : State) :
    s.startMessage.phase = .absorbing := by rfl

@[simp] theorem State.startMessage_err (s : State) :
    s.startMessage.err = s.err := by rfl

@[simp] theorem State.startMessage_errCause (s : State) :
    s.startMessage.errCause = s.errCause := by rfl

@[simp] theorem State.startMessage_pc (s : State) :
    s.startMessage.pc = s.pc := by rfl

@[simp] theorem State.startMessage_rdata (s : State) :
    s.startMessage.rdata = s.rdata := by rfl

@[simp] theorem State.startMessage_raised (s : State) :
    s.startMessage.raised = s.raised := by rfl

@[simp] theorem State.startMessage_baseIndex (s : State) :
    s.startMessage.baseIndex = s.baseIndex := by rfl

@[simp] theorem State.startMessage_host (s : State) :
    s.startMessage.host = s.host := by rfl

@[simp] theorem State.padBlock_h (s : State) :
    s.padBlock.h = s.h := by rfl

@[simp] theorem State.padBlock_blk (s : State) :
    s.padBlock.blk = (s.blk.write s.fill 0x80).fill (s.fill + 1) 63 0x00 := by rfl

@[simp] theorem State.padBlock_cntLo (s : State) :
    s.padBlock.cntLo = s.cntLo := by rfl

@[simp] theorem State.padBlock_cntHi (s : State) :
    s.padBlock.cntHi = s.cntHi := by rfl

@[simp] theorem State.padBlock_phase (s : State) :
    s.padBlock.phase = s.phase := by rfl

@[simp] theorem State.padBlock_err (s : State) :
    s.padBlock.err = s.err := by rfl

@[simp] theorem State.padBlock_errCause (s : State) :
    s.padBlock.errCause = s.errCause := by rfl

@[simp] theorem State.padBlock_pc (s : State) :
    s.padBlock.pc = s.pc := by rfl

@[simp] theorem State.padBlock_rdata (s : State) :
    s.padBlock.rdata = s.rdata := by rfl

@[simp] theorem State.padBlock_raised (s : State) :
    s.padBlock.raised = s.raised := by rfl

@[simp] theorem State.padBlock_baseIndex (s : State) :
    s.padBlock.baseIndex = s.baseIndex := by rfl

@[simp] theorem State.padBlock_host (s : State) :
    s.padBlock.host = s.host := by rfl

@[simp] theorem State.issuing_h (s : State) (as : List Access) :
    (s.issuing as).h = s.h := by rfl

@[simp] theorem State.issuing_blk (s : State) (as : List Access) :
    (s.issuing as).blk = s.blk := by rfl

@[simp] theorem State.issuing_cntLo (s : State) (as : List Access) :
    (s.issuing as).cntLo = s.cntLo := by rfl

@[simp] theorem State.issuing_cntHi (s : State) (as : List Access) :
    (s.issuing as).cntHi = s.cntHi := by rfl

@[simp] theorem State.issuing_phase (s : State) (as : List Access) :
    (s.issuing as).phase = s.phase := by rfl

@[simp] theorem State.issuing_err (s : State) (as : List Access) :
    (s.issuing as).err = s.err := by rfl

@[simp] theorem State.issuing_errCause (s : State) (as : List Access) :
    (s.issuing as).errCause = s.errCause := by rfl

@[simp] theorem State.issuing_pc (s : State) (as : List Access) :
    (s.issuing as).pc = s.pc := by rfl

@[simp] theorem State.issuing_rdata (s : State) (as : List Access) :
    (s.issuing as).rdata = s.rdata := by rfl

@[simp] theorem State.issuing_raised (s : State) (as : List Access) :
    (s.issuing as).raised = s.raised := by rfl

@[simp] theorem State.issuing_baseIndex (s : State) (as : List Access) :
    (s.issuing as).baseIndex = s.baseIndex := by rfl

@[simp] theorem State.issuing_host (s : State) (as : List Access) :
    (s.issuing as).host = as.map .access := by rfl

@[simp] theorem State.compressBlk_h (s : State) :
    s.compressBlk.h = compress s.h s.blk.read := State.setH_h s _

@[simp] theorem State.compressBlk_blk (s : State) :
    s.compressBlk.blk = s.blk := State.setH_blk s _

@[simp] theorem State.compressBlk_cntLo (s : State) :
    s.compressBlk.cntLo = s.cntLo := State.setH_cntLo s _

@[simp] theorem State.compressBlk_cntHi (s : State) :
    s.compressBlk.cntHi = s.cntHi := State.setH_cntHi s _

@[simp] theorem State.compressBlk_phase (s : State) :
    s.compressBlk.phase = s.phase := State.setH_phase s _

@[simp] theorem State.compressBlk_err (s : State) :
    s.compressBlk.err = s.err := State.setH_err s _

@[simp] theorem State.compressBlk_errCause (s : State) :
    s.compressBlk.errCause = s.errCause := State.setH_errCause s _

@[simp] theorem State.compressBlk_pc (s : State) :
    s.compressBlk.pc = s.pc := State.setH_pc s _

@[simp] theorem State.compressBlk_rdata (s : State) :
    s.compressBlk.rdata = s.rdata := State.setH_rdata s _

@[simp] theorem State.compressBlk_raised (s : State) :
    s.compressBlk.raised = s.raised := State.setH_raised s _

@[simp] theorem State.compressBlk_baseIndex (s : State) :
    s.compressBlk.baseIndex = s.baseIndex := State.setH_baseIndex s _

@[simp] theorem State.compressBlk_host (s : State) :
    s.compressBlk.host = s.host := State.setH_host s _

/-! The values of `State.reset` (R28). -/

@[simp] theorem State.reset_h : State.reset.h = ⟨Config.unsetWord, Config.unsetWord, Config.unsetWord, Config.unsetWord, Config.unsetWord⟩ := rfl

@[simp] theorem State.reset_blk : State.reset.blk = [] := rfl

@[simp] theorem State.reset_cntLo : State.reset.cntLo = Config.unsetWord := rfl

@[simp] theorem State.reset_cntHi : State.reset.cntHi = Config.unsetWord := rfl

@[simp] theorem State.reset_phase : State.reset.phase = .uninit := rfl

@[simp] theorem State.reset_err : State.reset.err = false := rfl

@[simp] theorem State.reset_errCause : State.reset.errCause = 0 := rfl

@[simp] theorem State.reset_pc : State.reset.pc = 0 := rfl

@[simp] theorem State.reset_rdata : State.reset.rdata = none := rfl

@[simp] theorem State.reset_raised : State.reset.raised = none := rfl

@[simp] theorem State.reset_baseIndex : State.reset.baseIndex = Config.resetBaseIndex := rfl

@[simp] theorem State.reset_host : State.reset.host = [] := rfl

/-! `absorbByte` and `makeRoom` choose between two updates: the fields that come out the same either way. -/

@[simp] theorem State.absorbByte_blk (s : State) (x : Byte) :
    (s.absorbByte x).blk = s.blk.write s.fill x := by
  unfold State.absorbByte
  dsimp only
  split <;> simp

@[simp] theorem State.absorbByte_cntLo (s : State) (x : Byte) :
    (s.absorbByte x).cntLo = s.cntLo + 1 := by
  unfold State.absorbByte
  dsimp only
  split <;> simp

@[simp] theorem State.absorbByte_cntHi (s : State) (x : Byte) :
    (s.absorbByte x).cntHi = if s.cntLo + 1 = 0 then s.cntHi + 1 else s.cntHi := by
  unfold State.absorbByte
  dsimp only
  split <;> simp

@[simp] theorem State.absorbByte_phase (s : State) (x : Byte) :
    (s.absorbByte x).phase = s.phase := by
  unfold State.absorbByte
  dsimp only
  split <;> simp

@[simp] theorem State.absorbByte_err (s : State) (x : Byte) :
    (s.absorbByte x).err = s.err := by
  unfold State.absorbByte
  dsimp only
  split <;> simp

@[simp] theorem State.absorbByte_errCause (s : State) (x : Byte) :
    (s.absorbByte x).errCause = s.errCause := by
  unfold State.absorbByte
  dsimp only
  split <;> simp

@[simp] theorem State.absorbByte_pc (s : State) (x : Byte) :
    (s.absorbByte x).pc = s.pc := by
  unfold State.absorbByte
  dsimp only
  split <;> simp

@[simp] theorem State.absorbByte_rdata (s : State) (x : Byte) :
    (s.absorbByte x).rdata = s.rdata := by
  unfold State.absorbByte
  dsimp only
  split <;> simp

@[simp] theorem State.absorbByte_raised (s : State) (x : Byte) :
    (s.absorbByte x).raised = s.raised := by
  unfold State.absorbByte
  dsimp only
  split <;> simp

@[simp] theorem State.absorbByte_baseIndex (s : State) (x : Byte) :
    (s.absorbByte x).baseIndex = s.baseIndex := by
  unfold State.absorbByte
  dsimp only
  split <;> simp

@[simp] theorem State.absorbByte_host (s : State) (x : Byte) :
    (s.absorbByte x).host = s.host := by
  unfold State.absorbByte
  dsimp only
  split <;> simp

@[simp] theorem State.makeRoom_cntLo (s : State) : s.makeRoom.cntLo = s.cntLo := by
  unfold State.makeRoom
  split <;> simp

@[simp] theorem State.makeRoom_cntHi (s : State) : s.makeRoom.cntHi = s.cntHi := by
  unfold State.makeRoom
  split <;> simp

@[simp] theorem State.makeRoom_phase (s : State) : s.makeRoom.phase = s.phase := by
  unfold State.makeRoom
  split <;> simp

@[simp] theorem State.makeRoom_err (s : State) : s.makeRoom.err = s.err := by
  unfold State.makeRoom
  split <;> simp

@[simp] theorem State.makeRoom_errCause (s : State) : s.makeRoom.errCause = s.errCause := by
  unfold State.makeRoom
  split <;> simp

@[simp] theorem State.makeRoom_pc (s : State) : s.makeRoom.pc = s.pc := by
  unfold State.makeRoom
  split <;> simp

@[simp] theorem State.makeRoom_rdata (s : State) : s.makeRoom.rdata = s.rdata := by
  unfold State.makeRoom
  split <;> simp

@[simp] theorem State.makeRoom_raised (s : State) : s.makeRoom.raised = s.raised := by
  unfold State.makeRoom
  split <;> simp

@[simp] theorem State.makeRoom_baseIndex (s : State) : s.makeRoom.baseIndex = s.baseIndex := by
  unfold State.makeRoom
  split <;> simp

@[simp] theorem State.makeRoom_host (s : State) : s.makeRoom.host = s.host := by
  unfold State.makeRoom
  split <;> simp

@[simp] theorem State.finishMessage_cntLo (s : State) : s.finishMessage.cntLo = s.cntLo := by
  simp [State.finishMessage]

@[simp] theorem State.finishMessage_cntHi (s : State) : s.finishMessage.cntHi = s.cntHi := by
  simp [State.finishMessage]

@[simp] theorem State.finishMessage_phase (s : State) : s.finishMessage.phase = .done := by
  simp [State.finishMessage]

@[simp] theorem State.finishMessage_err (s : State) : s.finishMessage.err = s.err := by
  simp [State.finishMessage]

@[simp] theorem State.finishMessage_errCause (s : State) : s.finishMessage.errCause = s.errCause := by
  simp [State.finishMessage]

@[simp] theorem State.finishMessage_pc (s : State) : s.finishMessage.pc = s.pc := by
  simp [State.finishMessage]

@[simp] theorem State.finishMessage_rdata (s : State) : s.finishMessage.rdata = s.rdata := by
  simp [State.finishMessage]

@[simp] theorem State.finishMessage_raised (s : State) : s.finishMessage.raised = s.raised := by
  simp [State.finishMessage]

@[simp] theorem State.finishMessage_baseIndex (s : State) : s.finishMessage.baseIndex = s.baseIndex := by
  simp [State.finishMessage]

@[simp] theorem State.finishMessage_host (s : State) : s.finishMessage.host = s.host := by
  simp [State.finishMessage]

end Sys2Proof.Machine
end

