-- ==== Sys2Proof/Laws/Ops.lean ====
section
/-! SUPPORT. What each shared operation can do, said once. -/

namespace Sys2Proof.Machine

/-- R19: FILL is an address of the buffer. -/
theorem State.fill_lt (s : State) : s.fill < Config.blockBytes := Nat.mod_lt _ (by decide)

/-- R19: FILL after a byte is absorbed. -/
theorem State.advanceCount_fill (s : State) : s.advanceCount.fill = (s.fill + 1) % Config.blockBytes := by
  have h1 : (1 : Word).toNat = 1 := rfl
  simp only [State.fill, State.advanceCount_cntLo, Config.blockBytes, BitVec.toNat_add, h1]
  omega

/-- R60: a command that needs an open message runs, or raises `Err(1)` or `Err(2)`. -/
theorem State.whileAbsorbing_cases (s : State) (command : State → State) :
    (s.phase = .uninit ∧ s.whileAbsorbing command = s.raise .cmdBeforeInit none) ∨
    (s.phase = .absorbing ∧ s.whileAbsorbing command = command s) ∨
    (s.phase = .done ∧ s.whileAbsorbing command = s.raise .cmdAfterFinal none) := by
  unfold State.whileAbsorbing
  cases s.phase <;> simp

/-- R89: a read returns its value, or raises `Err(5)` and returns 0. -/
theorem State.readWhen_cases (s : State) (allowed : Bool) (v : Word) :
    (allowed = true ∧ s.readWhen allowed v = s.respond (some v)) ∨
    (allowed = false ∧ s.readWhen allowed v = s.raise .readNoValue (some 0)) := by
  unfold State.readWhen
  cases allowed <;> simp

/-- R63: H after a byte is absorbed. -/
theorem State.absorbByte_h (s : State) (x : Byte) :
    (s.absorbByte x).h
      = if (s.fill + 1) % Config.blockBytes = 0 then compress s.h (s.blk.write s.fill x).read else s.h := by
  have hf : (s.memWrite s.fill x).advanceCount.fill = (s.fill + 1) % Config.blockBytes :=
    State.advanceCount_fill (s.memWrite s.fill x)
  unfold State.absorbByte
  dsimp only
  rw [hf]
  split <;> simp

/-- R67: the buffer after padding: pending bytes, the pad byte, zeros. -/
theorem State.padBlock_read {s : State} (h : s.blk.wf = true) (i : Nat) (hi : i < Config.blockBytes) :
    s.padBlock.blk.read i = if i < s.fill then s.blk.read i else if i = s.fill then 0x80 else 0 := by
  have hw := Memory.rising_of_wf h
  rw [State.padBlock_blk, Memory.read_fill (Memory.write_rising hw _ _), Memory.read_write hw]
  have : i < 64 := hi
  split_ifs <;> first | rfl | omega

theorem State.padBlock_wf {s : State} (h : s.blk.wf = true) : s.padBlock.blk.wf = true := by
  rw [State.padBlock_blk]
  exact Memory.fill_wf (Memory.write_wf h s.fill_lt _) _ (by decide) _

/-- R68: the buffer FINAL writes the length into. -/
theorem State.makeRoom_blk (s : State) :
    s.makeRoom.blk = if 55 < s.fill then Memory.cleared else s.blk := by
  unfold State.makeRoom
  split <;> simp

/-- R68: H before the length is written. -/
theorem State.makeRoom_h (s : State) :
    s.makeRoom.h = if 55 < s.fill then compress s.h s.blk.read else s.h := by
  unfold State.makeRoom
  split <;> simp

theorem State.makeRoom_wf {s : State} (h : s.blk.wf = true) : s.makeRoom.blk.wf = true := by
  rw [State.makeRoom_blk]
  split
  · exact Memory.wf_cleared
  · exact h

/-- R36: the length suffix fills the last eight addresses and nothing else. -/
theorem State.writeLength_read {s : State} (h : s.blk.wf = true) (i : Nat) :
    s.writeLength.blk.read i
      = if 56 ≤ i ∧ i < 64 then
          (beBytes (lengthHi s.cntHi s.cntLo) ++ beBytes (lengthLo s.cntLo)).getD (i - 56) 0
        else s.blk.read i := by
  rw [State.writeLength_blk, Memory.read_writeBytes (Memory.rising_of_wf h)]
  rfl

theorem State.writeLength_wf {s : State} (h : s.blk.wf = true) : s.writeLength.blk.wf = true := by
  rw [State.writeLength_blk]
  exact Memory.writeBytes_wf h _ _ (by simp [beBytes, Config.blockBytes])

/-- R66: the buffer after FINAL. -/
theorem State.finishMessage_blk (s : State) :
    s.finishMessage.blk = s.padBlock.makeRoom.writeLength.blk := by
  simp [State.finishMessage]

/-- R70: H after FINAL. -/
theorem State.finishMessage_h (s : State) :
    s.finishMessage.h = compress s.padBlock.makeRoom.h s.padBlock.makeRoom.writeLength.blk.read := by
  simp [State.finishMessage]

theorem State.finishMessage_wf {s : State} (h : s.blk.wf = true) : s.finishMessage.blk.wf = true := by
  rw [State.finishMessage_blk]
  exact State.writeLength_wf (State.makeRoom_wf (State.padBlock_wf h))

theorem State.absorbByte_wf {s : State} (h : s.blk.wf = true) (x : Byte) : (s.absorbByte x).blk.wf = true := by
  rw [State.absorbByte_blk]
  exact Memory.write_wf h s.fill_lt x

/-- R22, R99: raising keeps what ERRCAUSE may hold. -/
theorem State.raise_inv {s : State} (h : s.Inv) (c : ErrCause) {rd : Option Word}
    (hrd : rd = none ∨ rd = some 0) : (s.raise c rd).Inv := by
  obtain ⟨hw, he, h5, -⟩ := h
  refine ⟨hw, ?_, ?_, fun _ => ⟨rfl, hrd⟩⟩
  · rw [State.raise_err, State.raise_errCause]
    cases hs : s.err
    · have hc : c.code ≠ 0 := by cases c <;> decide
      simpa using hc
    · have : ¬ s.errCause = 0 := fun h0 => by simp [he.mpr h0] at hs
      simpa using this
  · rw [State.raise_errCause]
    split
    · exact h5
    · cases c <;> decide

/-- An access that is performed leaves the error record alone, so it keeps the invariant where it keeps the buffer's
canonical form. -/
theorem State.respond_inv {s t : State} (h : s.Inv) (hw : t.blk.wf = true) (he : t.err = s.err)
    (hc : t.errCause = s.errCause) (rd : Option Word) : (t.respond rd).Inv := by
  obtain ⟨-, h1, h2, -⟩ := h
  exact ⟨hw, by rw [State.respond_err, State.respond_errCause, he, hc]; exact h1,
    by rw [State.respond_errCause, hc]; exact h2, by simp⟩

end Sys2Proof.Machine
end

