-- ==== Sys2Proof/Laws/PerInstr.lean ====
section
/-! SUPPORT. Facts of every instruction as syntax, one lemma per constructor. -/

/-- R33, R48, R53: the access that issues an instruction is 32 bits wide, aligned, in the window, and at the
instruction's offset. -/
def Sys2Proof.Laws.Encoded.Statement (i : Sys2Proof.Instr) : Prop :=
  ∀ k : Nat, (Sys2Proof.encode k i).size = Sys2Proof.Config.accessBytes
    ∧ (Sys2Proof.encode k i).addr = Sys2Proof.Config.windowBytes * k + i.offset
    ∧ i.offset % 4 = 0 ∧ i.offset < Sys2Proof.Config.windowBytes

namespace Sys2Proof.Laws.Encoded

theorem init : Statement .init := fun _ => ⟨rfl, rfl, by decide, by decide⟩

theorem update (x : Byte) : Statement (.update x) :=
  fun _ => ⟨rfl, rfl, rfl, show 0 < 0x100 by decide⟩

theorem final : Statement .final := fun _ => ⟨rfl, rfl, by decide, by decide⟩

theorem rdStatus : Statement .rdStatus := fun _ => ⟨rfl, rfl, by decide, by decide⟩

theorem rdCountLo : Statement .rdCountLo := fun _ => ⟨rfl, rfl, by decide, by decide⟩

theorem rdCountHi : Statement .rdCountHi := fun _ => ⟨rfl, rfl, by decide, by decide⟩

theorem rdDigest0 : Statement .rdDigest0 := fun _ => ⟨rfl, rfl, by decide, by decide⟩

theorem rdDigest1 : Statement .rdDigest1 := fun _ => ⟨rfl, rfl, by decide, by decide⟩

theorem rdDigest2 : Statement .rdDigest2 := fun _ => ⟨rfl, rfl, by decide, by decide⟩

theorem rdDigest3 : Statement .rdDigest3 := fun _ => ⟨rfl, rfl, by decide, by decide⟩

theorem rdDigest4 : Statement .rdDigest4 := fun _ => ⟨rfl, rfl, by decide, by decide⟩

end Sys2Proof.Laws.Encoded
end

