-- ==== Sys2Proof/Laws/Step.lean ====
section
/-! SUPPORT. What one step can do, event by event. -/

namespace Sys2Proof.Machine

/-- No meaning stops: every instruction answers a next state. -/
theorem exec_isNext (i : Instr) (s : State) : ∃ t, exec i s = .next t := by
  cases i <;> exact ⟨_, rfl⟩

/-- Everything a meaning can do: the three commands in their phases, a good read, a read of a value that does not exist,
and a command outside a message. -/
theorem exec_cases (i : Instr) (s : State) :
    (i = .init ∧ exec i s = .next (s.startMessage.respond none)) ∨
    (∃ x, i = .update x ∧ s.phase = .absorbing ∧ exec i s = .next ((s.absorbByte x).respond none)) ∨
    (i = .final ∧ s.phase = .absorbing ∧ exec i s = .next (s.finishMessage.respond none)) ∨
    (commandWord i = none ∧ ∃ v, exec i s = .next (s.respond (some v))) ∨
    (commandWord i = none ∧ exec i s = .next (s.raise .readNoValue (some 0))) ∨
    (commandWord i ≠ none ∧ i ≠ .init ∧ s.phase = .uninit ∧ exec i s = .next (s.raise .cmdBeforeInit none)) ∨
    (commandWord i ≠ none ∧ i ≠ .init ∧ s.phase = .done ∧ exec i s = .next (s.raise .cmdAfterFinal none)) := by
  have read : ∀ (allowed : Bool) (v : Word), commandWord i = none →
      exec i s = .next (s.readWhen allowed v) →
      (commandWord i = none ∧ ∃ v, exec i s = .next (s.respond (some v))) ∨
      (commandWord i = none ∧ exec i s = .next (s.raise .readNoValue (some 0))) := by
    intro allowed v hi h
    rcases s.readWhen_cases allowed v with ⟨-, hr⟩ | ⟨-, hr⟩
    · exact .inl ⟨hi, v, hr ▸ h⟩
    · exact .inr ⟨hi, hr ▸ h⟩
  have widen : ∀ {p q a b c f g : Prop}, p ∨ q → a ∨ b ∨ c ∨ p ∨ q ∨ f ∨ g := by tauto
  cases i with
  | init => exact .inl ⟨rfl, rfl⟩
  | update x =>
    have hx : exec (.update x) s = .next (s.whileAbsorbing fun s => (s.absorbByte x).respond none) := rfl
    rcases s.whileAbsorbing_cases fun s => (s.absorbByte x).respond none with ⟨hp, h⟩ | ⟨hp, h⟩ | ⟨hp, h⟩
    · exact .inr (.inr (.inr (.inr (.inr (.inl ⟨by simp [commandWord], by simp, hp, hx.trans (h ▸ rfl)⟩)))))
    · exact .inr (.inl ⟨x, rfl, hp, hx.trans (h ▸ rfl)⟩)
    · exact .inr (.inr (.inr (.inr (.inr (.inr ⟨by simp [commandWord], by simp, hp, hx.trans (h ▸ rfl)⟩)))))
  | final =>
    have hx : exec .final s = .next (s.whileAbsorbing fun s => s.finishMessage.respond none) := rfl
    rcases s.whileAbsorbing_cases fun s => s.finishMessage.respond none with ⟨hp, h⟩ | ⟨hp, h⟩ | ⟨hp, h⟩
    · exact .inr (.inr (.inr (.inr (.inr (.inl ⟨by simp [commandWord], by simp, hp, hx.trans (h ▸ rfl)⟩)))))
    · exact .inr (.inr (.inl ⟨rfl, hp, hx.trans (h ▸ rfl)⟩))
    · exact .inr (.inr (.inr (.inr (.inr (.inr ⟨by simp [commandWord], by simp, hp, hx.trans (h ▸ rfl)⟩)))))
  | rdStatus => exact widen (.inl ⟨rfl, _, rfl⟩)
  | rdCountLo => exact widen (read _ _ rfl rfl)
  | rdCountHi => exact widen (read _ _ rfl rfl)
  | rdDigest0 => exact widen (read _ _ rfl rfl)
  | rdDigest1 => exact widen (read _ _ rfl rfl)
  | rdDigest2 => exact widen (read _ _ rfl rfl)
  | rdDigest3 => exact widen (read _ _ rfl rfl)
  | rdDigest4 => exact widen (read _ _ rfl rfl)

/-- An idle step. -/
theorem step_idle {s : State} (h : s.host = []) : step s = .next s := by
  simp [step, performNext, h]

/-- A step performs the oldest event. -/
theorem step_event {s : State} {e : HostEvent} {rest : List HostEvent} (h : s.host = e :: rest) :
    step s = performEvent e { s with host := rest } := by
  simp [step, performNext, h]

/-- R103, R104: what a rejected access of the window does. -/
theorem performAccess_error {a : Access} {r : Reject} (h : decode a = .error r) (s : State) :
    performAccess a s = .next (s.accept.raise (rejectCause r) a.errorData) := by
  simp [performAccess, h]

/-- R52: what a decoded access of the window does. -/
theorem performAccess_ok {a : Access} {i : Instr} (h : decode a = .ok i) (s : State) :
    performAccess a s = exec i s.accept := by
  simp [performAccess, h]

/-- Every access of the window answers a next state (R12). -/
theorem performAccess_isNext (a : Access) (s : State) : ∃ t, performAccess a s = .next t := by
  cases h : decode a with
  | ok i => exact performAccess_ok h s ▸ exec_isNext i s.accept
  | error r => exact ⟨_, performAccess_error h s⟩

/-- Everything a step can do. -/
theorem step_cases (s : State) :
    (s.host = [] ∧ step s = .next s) ∨
    (∃ a rest, s.host = .access a :: rest ∧ a.selects s.baseIndex = false
      ∧ step s = .next { s with host := rest }) ∨
    (∃ a rest i, s.host = .access a :: rest ∧ a.selects s.baseIndex = true ∧ decode a = .ok i
      ∧ step s = exec i (State.accept { s with host := rest })) ∨
    (∃ a rest r, s.host = .access a :: rest ∧ a.selects s.baseIndex = true ∧ decode a = .error r
      ∧ step s = .next ((State.accept { s with host := rest }).raise (rejectCause r) a.errorData)) ∨
    (∃ rest, s.host = .reset :: rest ∧ step s = .next (State.hardwareReset { s with host := rest })) ∨
    (∃ a rest, s.host = .resetDuring a :: rest ∧ step s = .refused .resetDuringAccess) ∨
    (∃ a rest, s.host = .interleaved a :: rest ∧ step s = .refused .interleavedMaster) := by
  cases h : s.host with
  | nil => exact .inl ⟨rfl, step_idle h⟩
  | cons e rest =>
    right
    have hs := step_event h
    cases e with
    | access a =>
      cases hsel : a.selects s.baseIndex with
      | false => exact .inl ⟨a, rest, rfl, hsel, by simpa [performEvent, hsel] using hs⟩
      | true =>
        have hs' : step s = performAccess a { s with host := rest } := by
          simpa [performEvent, hsel] using hs
        right
        cases hd : decode a with
        | ok i => exact .inl ⟨a, rest, i, rfl, hsel, hd, by rw [hs', performAccess_ok hd]⟩
        | error r => exact .inr (.inl ⟨a, rest, r, rfl, hsel, hd, by rw [hs', performAccess_error hd]⟩)
    | reset => exact .inr (.inr (.inr (.inl ⟨rest, rfl, hs⟩)))
    | resetDuring a => exact .inr (.inr (.inr (.inr (.inl ⟨a, rest, rfl, hs⟩))))
    | interleaved a => exact .inr (.inr (.inr (.inr (.inr ⟨a, rest, rfl, hs⟩))))

end Sys2Proof.Machine
end

