-- ==== Sys2Proof/Tests/Slice0.lean ====
section
/-! SUPPORT. Tests of the model against the spec's own tables (95_test_vectors.md and the tables of 30_encoding.md), and
the witnesses that the statements' hypotheses can be met. -/

namespace Sys2Proof.Machine

/-- The state with one write to come, at an offset of its window. -/
def State.withWrite (s : State) (off size : Nat) (v : Word) : State :=
  { s with host := [.access (.write (256 * s.baseIndex + off) size v)] }

/-- The state with one read to come. -/
def State.withRead (s : State) (off size : Nat) : State :=
  { s with host := [.access (.read (256 * s.baseIndex + off) size)] }

end Sys2Proof.Machine

namespace Sys2Proof.Tests

-- One thread at a time: a thread for each theorem would exceed the memory limit of the check.
set_option Elab.async false

open Sys2Proof.Machine

/-! ### Small states -/

/-- Right after INIT (R28). -/
def opened : State := State.reset.startMessage

/-- "abc" absorbed, FINAL to come (95_test_vectors.md PR1). -/
def abc : State := State.launch iv 0 3 [0x61, 0x62, 0x63]

/-- One byte short of a full block, and of the counter's wrap (95_test_vectors.md U5). -/
def nearWrap : State := State.launch iv 0 0xFFFFFFFF []

/-- A finished message with a recognizable H. -/
def finished : State := { State.reset with phase := .done, h := ⟨1, 2, 3, 4, 5⟩, cntLo := 3 }

/-- An error recorded in UNINIT (95_test_vectors.md E1). -/
def faulted : State := { State.reset with err := true, errCause := 1 }

/-- A block at BASE = 0x500. -/
def elsewhere : State := { State.reset with baseIndex := 5 }

/-- A check of the next state; a stop fails it. -/
def nextIs (r : Result) (check : State → Bool) : Bool :=
  match r with
  | .next t => check t
  | .fault _ => false
  | .refused _ => false

/-! ### Well-formedness: each check refuses an ill-formed term (R55) -/

theorem test_wf_refuses_wide_byte : (AsmLine.update 256).wf = false := by decide

theorem test_wf_refuses_wide_byte_in_sequence : (AsmLine.updates [0x61, 256]).wf = false := by decide

theorem test_wf_refuses_wide_byte_in_hash : (AsmLine.hash [0x61, 300]).wf = false := by decide

theorem test_wf_refuses_offset_outside_window : (AsmLine.wrRaw 0x100 0).wf = false := by decide

theorem test_wf_refuses_wide_value : (AsmLine.wrRaw 0x00 (2 ^ 32)).wf = false := by decide

theorem test_wf_refuses_read_outside_window : (AsmLine.rdRaw 0x100).wf = false := by decide

theorem test_wf_admits_largest_byte : (AsmLine.update 255).wf = true := by decide

/-! ### Decoding: every constructor by its word, written out from R48, R49 and R53 -/

theorem test_decode_init :
    decode (.write 0x00 4 0b0000000000000000_00000000_00000001) = .ok .init := by decide +kernel

theorem test_decode_update :
    decode (.write 0x00 4 0b0000000000000000_10100101_00000010) = .ok (.update 0xA5) := by decide +kernel

theorem test_decode_final :
    decode (.write 0x00 4 0b0000000000000000_00000000_00000011) = .ok .final := by decide +kernel

theorem test_decode_reads :
    ([0b00000100, 0b00001000, 0b00001100, 0b00010000, 0b00010100, 0b00011000, 0b00011100, 0b00100000].map
        fun off => decode (.read off 4))
      = [.ok .rdStatus, .ok .rdCountLo, .ok .rdCountHi, .ok .rdDigest0, .ok .rdDigest1, .ok .rdDigest2,
         .ok .rdDigest3, .ok .rdDigest4] := by decide +kernel

theorem test_decode_rejects_reserved_words :
    ([0x00000000, 0x00000004, 0x000000FF, 0x00000101, 0x00000103, 0x00010002, 0x80000001].map
        fun v => decode (.write 0x00 4 v))
      = List.replicate 7 (.error .illegalCmd) := by decide +kernel

theorem test_decode_rejects_bad_accesses :
    [decode (.read 0x00 4), decode (.read 0x24 4), decode (.read 0xFC 4), decode (.read 0x06 4),
      decode (.read 0x04 1), decode (.write 0x00 2 1), decode (.write 0x08 4 1), decode (.write 0x02 4 1)]
      = List.replicate 8 (.error .badAccess) := by decide +kernel

theorem test_decodeTableWord :
    [decodeTableWord 32 0x6102, decodeTableWord 8 0x20, decodeTableWord 32 0x03, decodeTableWord 8 0x24]
      = [some (.update 0x61), some .rdDigest4, some .final, none] := by decide +kernel

theorem test_withFetchWord_runs_it :
    nextIs (step (State.reset.withFetchWord 32 1)) (fun t => t.phase == .absorbing && t.pc == 1) = true := by
  decide +kernel

/-! ### The compression step (95_test_vectors.md P1 to P3, T1, T2) -/

theorem test_rotl : [rotl 0x80000000 1, rotl 0x12345678 5, rotl 0xEFCDAB89 30, rotl 0x00000003 30]
    = [0x00000001, 0x468ACF02, 0x7BF36AE2, 0xC0000000] := by decide +kernel

theorem test_round_functions :
    [choose 0xF0F0F0F0 0xFF00FF00 0xAAAAAAAA, parity 0xF0F0F0F0 0xFF00FF00 0xAAAAAAAA,
      majority 0xF0F0F0F0 0xFF00FF00 0xAAAAAAAA] = [0xFA0AFA0A, 0xA55AA55A, 0xFAA0FAA0] := by decide +kernel

theorem test_constant_boundaries : [0, 19, 20, 39, 40, 59, 60, 79].map roundConstant
    = [0x5A827999, 0x5A827999, 0x6ED9EBA1, 0x6ED9EBA1, 0x8F1BBCDC, 0x8F1BBCDC, 0xCA62C1D6, 0xCA62C1D6] := by
  decide +kernel

theorem test_round_zero_of_abc : roundUpdate (workingOf iv) 0x61626380 0
    = ⟨0x0116FC33, 0x67452301, 0x7BF36AE2, 0x98BADCFE, 0x10325476⟩ := by decide +kernel

theorem test_compress_zero_block : compress iv (fun _ => 0)
    = ⟨0x92B404E5, 0x56588CED, 0x6C1ACD4E, 0xBF053F68, 0x09F73A93⟩ := by decide +kernel

theorem test_compress_counting_block : compress iv (fun i => BitVec.ofNat 8 i)
    = ⟨0xB9AC757B, 0xBC297925, 0x2E227274, 0x06872F94, 0xCBEA56A1⟩ := by decide +kernel

/-! ### The length suffix (95_test_vectors.md F1) -/

theorem test_length_words :
    [(lengthHi 0 0x20000000, lengthLo 0x20000000), (lengthHi 0x20000000 0, lengthLo 0),
      (lengthHi 0xFFFFFFFF 0xFFFFFFFF, lengthLo 0xFFFFFFFF)]
      = [(0x00000001, 0), (0, 0), (0xFFFFFFFF, 0xFFFFFFF8)] := by decide +kernel

/-! ### One step of each instruction -/

/-- R62's example. -/
theorem test_init : nextIs (exec .init finished) (fun t => t.h == ⟨0x67452301, 0xEFCDAB89, 0x98BADCFE, 0x10325476,
    0xC3D2E1F0⟩ && t.blk.read 63 == 0 && t.cntLo == 0 && t.status == 0x00000001) = true := by decide +kernel

/-- 95_test_vectors.md E10: INIT keeps an earlier error. -/
theorem test_init_keeps_error : nextIs (exec .init faulted) (fun t => t.status == 0x00000105) = true := by
  decide +kernel

/-- 95_test_vectors.md U1. -/
theorem test_update_first_byte : nextIs (exec (.update 0x61) opened) (fun t => t.blk.read 0 == 0x61
    && t.cntLo == 1 && t.cntHi == 0 && t.h == iv) = true := by decide +kernel

/-- 95_test_vectors.md U5. -/
theorem test_update_wrap_compresses : nextIs (exec (.update 0x61) nearWrap) (fun t => t.blk.read 63 == 0x61
    && t.cntLo == 0 && t.cntHi == 1
    && t.h == ⟨0xE99DDAE5, 0x796E39F9, 0x196920A1, 0x811C45E5, 0x975256DE⟩) = true := by decide +kernel

/-- 95_test_vectors.md S2, PR1. -/
theorem test_final_abc : nextIs (exec .final abc) (fun t => t.phase == .done && t.blk.read 3 == 0x80
    && t.blk.read 63 == 0x18
    && t.h == ⟨0xA9993E36, 0x4706816A, 0xBA3E2571, 0x7850C26C, 0x9CD0D89D⟩) = true := by decide +kernel

/-- 95_test_vectors.md F4: the two-block case. -/
theorem test_final_two_blocks :
    nextIs (exec .final (State.launch iv 0 56 ((List.range 56).map (BitVec.ofNat 8)))) (fun t =>
      t.h.digestBytes == [0x63, 0x6e, 0x2e, 0xc6, 0x98, 0xda, 0xc9, 0x03, 0x49, 0x8e, 0x64, 0x8b, 0xd2, 0xf3, 0xaf,
        0x64, 0x1d, 0x3c, 0x88, 0xcb]) = true := by decide +kernel

/-- R90's examples. -/
theorem test_rdStatus : [State.reset.status, opened.status, finished.status, faulted.status]
    = [0x00000000, 0x00000001, 0x00000002, 0x00000104] := by decide +kernel

theorem test_rdStatus_returns : nextIs (exec .rdStatus faulted) (fun t => t.rdata == some 0x104) = true := by
  decide +kernel

theorem test_rdCountLo : nextIs (exec .rdCountLo abc) (fun t => t.rdata == some 3) = true := by decide +kernel

/-- 95_test_vectors.md E9: the first cause is kept. -/
theorem test_rdCountLo_keeps_first_cause :
    nextIs (exec .rdCountLo faulted) (fun t => t.rdata == some 0 && t.status == 0x00000104) = true := by
  decide +kernel

theorem test_rdCountHi : nextIs (exec .rdCountHi { abc with cntHi := 7 }) (fun t => t.rdata == some 7) = true := by
  decide +kernel

theorem test_rdDigests : ([Instr.rdDigest0, .rdDigest1, .rdDigest2, .rdDigest3, .rdDigest4].map
    fun i => nextIs (exec i finished) (fun t => t.rdata == some (match i with
      | .rdDigest0 => 1 | .rdDigest1 => 2 | .rdDigest2 => 3 | .rdDigest3 => 4 | _ => 5)))
    = List.replicate 5 true := by decide +kernel

/-- 95_test_vectors.md E8. -/
theorem test_rdDigest_while_absorbing :
    nextIs (exec .rdDigest0 opened) (fun t => t.rdata == some 0 && t.status == 0x00000505) = true := by
  decide +kernel

/-! ### Errors (95_test_vectors.md E1 to E7, E11, E12) -/

theorem test_errors_of_steps :
    [nextIs (step (State.reset.withWrite 0 4 0x00006102)) (fun t => t.status == 0x00000104),
      nextIs (step (State.reset.withWrite 0 4 0x00000003)) (fun t => t.status == 0x00000104),
      nextIs (step (finished.withWrite 0 4 0x00000003)) (fun t => t.status == 0x00000206 && t.h == finished.h),
      nextIs (step (finished.withWrite 0 4 0x00000002)) (fun t => t.status == 0x00000206 && t.cntLo == 3),
      nextIs (step (opened.withWrite 0 4 0x00000004)) (fun t => t.status == 0x00000305),
      nextIs (step (State.reset.withWrite 0 4 0x00000103)) (fun t => t.status == 0x00000304),
      nextIs (step (opened.withWrite 8 4 0xFFFFFFC0)) (fun t => t.status == 0x00000405 && t.cntLo == 0),
      nextIs (step (elsewhere.withRead 4 1)) (fun t => t.rdata == some 0 && t.status == 0x00000404),
      nextIs (step (elsewhere.withRead 6 4)) (fun t => t.rdata == some 0 && t.pc == 1)]
      = List.replicate 9 true := by decide +kernel

/-! ### The assembler's text (R55, R56) -/

theorem test_parse_update_char :
    parseLine ['U', 'P', 'D', 'A', 'T', 'E', ' ', singleQuote, 'a', singleQuote, ';', 'x'] = some (some (.update 0x61)) := by
  decide +kernel

theorem test_parse_write : parseLine "WR 0x08, 0xFFFFFFC0".toList = some (some (.wrRaw 8 0xFFFFFFC0)) := by
  decide +kernel

theorem test_parse_comment : parseLine "  ; INIT".toList = some none := by decide +kernel

/-- Log 14: a comma inside quotes is an element, not a separator. -/
theorem test_parse_list_with_quoted_comma :
    parseBytes ['[', singleQuote, ',', singleQuote, ',', ' ', '6', '5', ']'] = some [0x2C, 65] := by decide +kernel

theorem test_assembler_rejects_wide_byte : assembleText 0 ["UPDATE 256".toList] = none := by decide +kernel

/-! ### Witnesses: the hypotheses of each statement are met, clause by clause -/

theorem witness_HardwareResetClearsControlState :
    { finished with host := [.reset] }.host = HostEvent.reset :: [] := rfl

theorem witness_HardwareResetLeavesOneState :
    { faulted with host := [.reset, .reset] }.host = HostEvent.reset :: [.reset] := rfl

theorem witness_InitStartsMessage :
    (0x00000101 : Word).toNat % 256 = 1 ∧ (0x00000101 : Word) ≠ 1 := by decide

/-- The three clauses; FILL at both ends, and the counter at its wrap. -/
theorem witness_UpdateAbsorbsOneByte :
    (opened.blk.wf = true ∧ opened.phase = .absorbing ∧ opened.cntLo.toNat % 64 = 0)
    ∧ (nearWrap.blk.wf = true ∧ nearWrap.phase = .absorbing ∧ nearWrap.cntLo.toNat = 2 ^ 32 - 1)
    ∧ (State.reset.blk.wf = true ∧ State.reset.phase = .uninit)
    ∧ (finished.blk.wf = true ∧ finished.phase = .done) := by decide +kernel

/-- The three clauses; FILL on both sides of 55. -/
theorem witness_FinalPadsAndCompresses :
    ({ abc with cntLo := 55 }.blk.wf = true ∧ { abc with cntLo := 55 }.phase = .absorbing)
    ∧ ({ abc with cntLo := 56 }.blk.wf = true ∧ { abc with cntLo := 56 }.phase = .absorbing)
    ∧ (State.reset.blk.wf = true ∧ State.reset.phase = .uninit)
    ∧ (finished.blk.wf = true ∧ finished.phase = .done) := by decide +kernel

theorem witness_InitForgetsEarlierMessages :
    exec .init finished = .next (finished.startMessage.respond none)
    ∧ exec .init faulted = .next (faulted.startMessage.respond none) := ⟨rfl, rfl⟩

theorem witness_StatusReadsEveryField : { State.reset with err := true, errCause := 5 }.Inv := by decide +kernel

theorem witness_CountReads :
    opened.phase ≠ .uninit ∧ finished.phase ≠ .uninit ∧ State.reset.phase = .uninit := by decide

theorem witness_DigestReads :
    finished.phase = .done ∧ opened.phase ≠ .done ∧ State.reset.phase ≠ .done := by decide

/-- A good read and a read of a value that does not exist. -/
theorem witness_ReadsHaveNoSideEffectOnTheMessage :
    Instr.isRead .rdCountLo ∧ nextIs (exec .rdCountLo opened) (fun t => t.raised == none) = true
    ∧ nextIs (exec .rdCountLo State.reset) (fun t => t.raised == some .readNoValue) = true := by
  refine ⟨by simp [Instr.isRead], ?_, ?_⟩ <;> decide +kernel

/-- FINAL and the largest UPDATE word, in both phases. -/
theorem witness_CommandOutsideMessageRaises :
    ((0x00000003 : Word).toNat = 3 ∧ (0x0000FF02 : Word).toNat % 256 = 2 ∧ (0x0000FF02 : Word).toNat < 65536)
    ∧ (elsewhere.withWrite 0 4 3).host = .access (.write (256 * (elsewhere.withWrite 0 4 3).baseIndex) 4 3) :: []
    ∧ (elsewhere.withWrite 0 4 3).phase = .uninit ∧ (finished.withWrite 0 4 0xFF02).phase = .done
    ∧ (finished.withWrite 0 4 0xFF02).host
        = .access (.write (256 * (finished.withWrite 0 4 0xFF02).baseIndex) 4 0xFF02) :: [] := by decide +kernel

/-- Words next to the legal ones. -/
theorem witness_IllegalWordRaises :
    ([0, 4, 0x101, 0x103, 0x10002, 0xFFFFFFFF].all fun n => n != 1 && n != 3 && !(n % 256 == 2 && n < 65536)) = true
    ∧ ∀ v : Word, (opened.withWrite 0 4 v).host
      = .access (.write (256 * (opened.withWrite 0 4 v).baseIndex) 4 v) :: [] :=
  ⟨by decide, fun _ => rfl⟩

/-- Each disjunct, at its boundary. -/
theorem witness_BadAccessRaises :
    (∀ p ∈ [(0x00, 2), (0x01, 4), (0x04, 4), (0xFF, 4)], p.1 < 256 ∧ (p.2 ≠ 4 ∨ p.1 ≠ 0)
      ∧ (elsewhere.withWrite p.1 p.2 1).host
        = .access (.write (256 * (elsewhere.withWrite p.1 p.2 1).baseIndex + p.1) p.2 1) :: [])
    ∧ (∀ p ∈ [(0x04, 1), (0x06, 4), (0x00, 4), (0x24, 4), (0xFC, 4)],
      p.1 < 256 ∧ (p.2 ≠ 4 ∨ p.1 % 4 ≠ 0 ∨ p.1 = 0 ∨ 0x24 ≤ p.1)
      ∧ (elsewhere.withRead p.1 p.2).host
        = .access (.read (256 * (elsewhere.withRead p.1 p.2).baseIndex + p.1) p.2) :: []) := by decide +kernel

/-- Each register, in each phase that has no value for it. -/
theorem witness_NoValueReadRaises :
    (State.reset.withRead 0x08 4).phase = .uninit ∧ (State.reset.withRead 0x20 4).phase ≠ .done
    ∧ (opened.withRead 0x10 4).phase ≠ .done
    ∧ (opened.withRead 0x10 4).host
      = .access (.read (256 * (opened.withRead 0x10 4).baseIndex + 0x10) 4) :: [] := by decide +kernel

theorem witness_FirstFailedCheckDecidesTheCause :
    (elsewhere.withRead 0xFF 1).host = .access (.read 0x5FF 1) :: []
    ∧ Access.selects (elsewhere.withRead 0xFF 1).baseIndex (.read 0x5FF 1) = true := by decide +kernel

/-- An access that raises while an earlier error is recorded. -/
theorem witness_ErrorsArePrecise :
    (faulted.withRead 0x08 4).host = .access (.read 0x08 4) :: []
    ∧ Access.selects (faulted.withRead 0x08 4).baseIndex (.read 0x08 4) = true
    ∧ step (faulted.withRead 0x08 4)
      = .next ((State.accept { faulted with host := [] }).raise .readNoValue (some 0)) := by
  refine ⟨?_, ?_, rfl⟩ <;> decide +kernel

theorem witness_OnlyErrorsWriteTheErrorRecord :
    (faulted.withRead 0x04 4).host = .access (.read 0x04 4) :: []
    ∧ Access.selects (faulted.withRead 0x04 4).baseIndex (.read 0x04 4) = true
    ∧ step (faulted.withRead 0x04 4)
      = .next ((State.accept { faulted with host := [] }).respond (some (State.accept faulted).status)) := by
  refine ⟨?_, ?_, rfl⟩ <;> decide +kernel

theorem witness_NoAccessClearsAnError :
    (faulted.withWrite 0 4 1).host = .access (.write 0 4 1) :: [] ∧ (faulted.withWrite 0 4 1).err = true
    ∧ { faulted with host := [.reset] }.host = HostEvent.reset :: [] := by decide +kernel

/-- A run in which the second access raises. -/
theorem witness_ErrRecordsWhetherAnyAccessFaulted :
    elsewhere.err = false ∧ (∀ a ∈ [Access.read 0x504 4, .read 0x500 4], a.selects elsewhere.baseIndex = true)
    ∧ faults 2 (elsewhere.issuing [.read 0x504 4, .read 0x500 4]) = [none, some .badAccess] := by decide +kernel

theorem witness_StepRunsTheDecodedInstruction :
    (elsewhere.withWrite 0 4 0x6102).host = .access (.write 0x500 4 0x6102) :: []
    ∧ Access.selects (elsewhere.withWrite 0 4 0x6102).baseIndex (.write 0x500 4 0x6102) = true
    ∧ decode (.write 0x500 4 0x6102) = .ok (.update 0x61) ∧ (Instr.update 0x61).wf = true := by decide +kernel

theorem witness_EncodeAndDecodeAgree :
    (Instr.update 0xFF).wf = true ∧ Access.selects 5 (.read 0x520 4) = true
    ∧ decode (.read 0x520 4) = .ok .rdDigest4 := by decide +kernel

theorem witness_DecoderAgreesWithOpcodeTable :
    (Access.write 0x500 4 0x6102).size = 4 ∧ (Access.write 0x500 4 0x6102).addr % 4 = 0
    ∧ ⟨"UPDATE", .cmd, 0x00000002, 0xFFFF00FF⟩ ∈ opcodeTable
    ∧ OpcodeRow.matchesAccess ⟨"UPDATE", .cmd, 0x00000002, 0xFFFF00FF⟩ (.write 0x500 4 0x6102) = true := by
  decide +kernel

/-- Both ends of each range of rounds. -/
theorem witness_RoundUsesItsFunctionAndConstant :
    (0 ≤ 19 ∧ 19 ≤ 19) ∧ (20 ≤ 20 ∧ 20 ≤ 39 ∧ 20 ≤ 39 ∧ 39 ≤ 39) ∧ (40 ≤ 40 ∧ 40 ≤ 59 ∧ 40 ≤ 59 ∧ 59 ≤ 59)
    ∧ (60 ≤ 60 ∧ 60 ≤ 79) := by decide

/-- The all-zero block, whose expanded schedule is all zero. -/
theorem witness_InPlaceScheduleIsTheExpandedOne :
    (∀ t, t ≤ 15 → (fun _ => 0 : Nat → Word) t = be32 0 0 0 0)
    ∧ (∀ t, 16 ≤ t → t ≤ 79 → (fun _ => 0 : Nat → Word) t = rotl (0 ^^^ 0 ^^^ 0 ^^^ 0) 1) :=
  ⟨fun _ _ => show (0 : Word) = be32 0 0 0 0 by decide +kernel,
    fun _ _ _ => show (0 : Word) = rotl (0 ^^^ 0 ^^^ 0 ^^^ 0) 1 by decide +kernel⟩

/-- Two blocks that differ from address 64 on. -/
theorem witness_CompressReadsOnlyItsBlock :
    (∀ i, i < 64 → (fun _ => 0 : Nat → Byte) i = (fun i => if i < 64 then 0 else 1) i)
    ∧ (fun _ => 0 : Nat → Byte) 64 ≠ (fun i => if i < 64 then 0 else 1) 64 :=
  ⟨fun i hi => by simp [hi], by decide⟩

theorem witness_RotationAndPackingAreInvertible : (0 < 1 ∧ 1 < 32) ∧ (0 < 31 ∧ 31 < 32) := by decide

theorem witness_SplitCounterIsOneCounter :
    { nearWrap with cntHi := 0xFFFFFFFF }.blk.wf = true ∧ { nearWrap with cntHi := 0xFFFFFFFF }.phase = .absorbing
    ∧ { nearWrap with cntHi := 0xFFFFFFFF }.count64 = 2 ^ 64 - 1 := by decide +kernel

theorem witness_ChunkingDoesNotMatter : nearWrap.phase = .absorbing := by decide

theorem witness_EveryStepKeepsTheInvariant :
    (abc.withWrite 0 4 3).Inv ∧ step (abc.withWrite 0 4 3)
      = .next ((State.accept { abc with host := [] }).finishMessage.respond none) := by
  refine ⟨?_, rfl⟩
  decide +kernel

theorem witness_EveryAccessCompletesAndAdvancesPc :
    (elsewhere.withRead 0x00 4).host = .access (.read 0x500 4) :: []
    ∧ Access.selects (elsewhere.withRead 0x00 4).baseIndex (.read 0x500 4) = true := by decide +kernel

/-- A command that changes H, BLK, the counter and PHASE. -/
theorem witness_RegistersHaveTheirWriters :
    nextIs (exec .init finished) (fun t => t.h != finished.h && t.cntLo != finished.cntLo
      && t.phase != finished.phase) = true := by decide +kernel

/-- The three changes of PHASE. -/
theorem witness_PhaseChangesOnlyAsItsTableSays :
    nextIs (step { finished with host := [.reset] }) (fun t => t.phase == .uninit) = true
    ∧ nextIs (step (State.reset.withWrite 0 4 1)) (fun t => t.phase == .absorbing) = true
    ∧ nextIs (step (abc.withWrite 0 4 3)) (fun t => t.phase == .done) = true := by decide +kernel

theorem witness_DigestStaysUntilTheNextInit :
    finished.phase = .done
    ∧ ∀ a ∈ [Access.write 0 4 3, .write 0 4 2, .read 0x10 4, .read 0 4], decode a ≠ .ok .init := by decide +kernel

/-- A command and a read; a state in ABSORBING, and one at the counter's wrap. -/
theorem witness_ReadsSeeTheCommandBeforeThem :
    ¬ Instr.isRead .final ∧ Instr.isRead .rdDigest4 ∧ abc.phase = .absorbing
    ∧ nearWrap.phase = .absorbing ∧ nearWrap.cntLo.toNat = 2 ^ 32 - 1 := by
  refine ⟨by simp [Instr.isRead], by simp [Instr.isRead], ?_⟩
  decide +kernel

/-- Two states that differ in every register without value. -/
theorem witness_RegistersWithoutValueAreUnobservable :
    State.reset.phase = .uninit
    ∧ State.reset.sameOutside { State.reset with h := iv, blk := [(3, 1)], cntLo := 9, cntHi := 9 }
    ∧ ¬ State.reset.sameMessage { State.reset with h := iv, blk := [(3, 1)], cntLo := 9, cntHi := 9 } := by
  refine ⟨rfl, ⟨rfl, rfl, rfl, rfl, rfl, rfl, rfl, rfl⟩, fun h => ?_⟩
  exact absurd h.2.2.1 (by decide)

/-- Two buffers that differ at FILL, and a state in DONE with another buffer. -/
theorem witness_StaleBytesAreUnobservable :
    abc.phase = .absorbing ∧ abc.blk.wf = true ∧ Memory.wf (abc.blk.write 3 0x77) = true
    ∧ (∀ i, i < abc.cntLo.toNat % 64 → (abc.blk.write 3 0x77).read i = abc.blk.read i)
    ∧ (abc.blk.write 3 0x77).read 3 ≠ abc.blk.read 3
    ∧ finished.phase = .done ∧ finished.blk.read 0 ≠ Memory.read [(0, 0x80)] 0 := by decide +kernel

theorem witness_AccessesElsewhereDoNotReachTheBlock :
    Access.selects 5 (.read 0x5FF 4) = true ∧ Access.selects elsewhere.baseIndex (.read 0x600 4) = false
    ∧ { elsewhere with host := [.access (.read 0x600 4)] }.host = HostEvent.access (.read 0x600 4) :: [] := by
  decide +kernel

theorem witness_IdleAndUnspecifiedEvents :
    State.reset.host = [] ∧ HostEvent.reset.specified = true ∧ (HostEvent.access (.read 0 1)).specified = true
    ∧ { opened with host := [.resetDuring (.read 0 4)] }.host = HostEvent.resetDuring (.read 0 4) :: []
    ∧ { opened with host := [.interleaved (.read 0 4)] }.host = HostEvent.interleaved (.read 0 4) :: [] := by
  decide +kernel

/-- Operands at both sides of each bound. -/
theorem witness_AssemblerEmitsTheEncodings : 255 ≤ 255 ∧ 255 < 256 ∧ 0xFF < 256 ∧ 0xFFFFFFFF < 2 ^ 32 := by omega

/-- A line without quotes or comment, digits of each radix at their largest, and the ends of ASCII. -/
theorem witness_AssemblerReadsOperandText :
    (['R', 'D', ' ', '4'].all fun c => c != ';' && c != singleQuote && c != doubleQuote) = true
    ∧ ([0, 9].all fun d => d < 10) = true ∧ ([0, 15].all fun d => d < 16) = true
    ∧ ([Char.ofNat 0, ',', singleQuote, Char.ofNat 127].all fun c => c.toNat < 128 && c != doubleQuote) = true := by
  decide +kernel

/-- Digits of each radix at their largest, and quoted characters that a list could mistake for its own. -/
theorem witness_AssemblerReadsListText :
    ([0, 15].all fun d => d < 16) = true
    ∧ ([',', ']', singleQuote, doubleQuote, ' '].all fun c => c.toNat < 128) = true
    ∧ ([[6, 5], [0], [2, 5, 5]].all fun ds => !ds.isEmpty && ds.all fun d => d < 10) = true := by decide +kernel

end Sys2Proof.Tests
end

section
/-! PROOFS. The rotation is circular, and a word is its four bytes (R9, R10). -/

namespace Sys2Proof.Machine

/-- R9: for a count below 32, `rotl` is the library's circular rotation. -/
theorem rotl_eq_rotateLeft (x : Word) {n : Nat} (h : n < 32) : rotl x n = x.rotateLeft n := by
  rw [BitVec.rotateLeft_def, Nat.mod_eq_of_lt h, rotl]

/-- R10: each bit of a packed word is a bit of one byte; the shifted bytes do not overlap. -/
theorem getLsbD_be32 (b0 b1 b2 b3 : Byte) {i : Nat} (h : i < 32) :
    (be32 b0 b1 b2 b3).getLsbD i
      = if i < 8 then b3.getLsbD i
        else if i < 16 then b2.getLsbD (i - 8)
        else if i < 24 then b1.getLsbD (i - 16)
        else b0.getLsbD (i - 24) := by
  have outside (b : Byte) {j : Nat} (hj : 8 ≤ j) : b.getLsbD j = false := BitVec.getLsbD_of_ge b j hj
  simp only [be32, BitVec.getLsbD_or, BitVec.getLsbD_shiftLeft, BitVec.getLsbD_setWidth]
  split_ifs <;> simp (disch := omega) only [decide_eq_true, decide_eq_false, outside] <;> simp

/-- R10: unpacking gives the packed bytes back. -/
@[simp] theorem beBytes_be32 (b0 b1 b2 b3 : Byte) : beBytes (be32 b0 b1 b2 b3) = [b0, b1, b2, b3] := by
  simp only [beBytes, List.cons.injEq, and_true]
  refine ⟨?_, ?_, ?_, ?_⟩ <;> ext i hi <;> rw [BitVec.getElem_extractLsb', getLsbD_be32 _ _ _ _ (by omega)]
  all_goals simp (disch := omega) [if_pos, if_neg]

/-- R10: packing the bytes of a word gives the word back. -/
theorem be32_extractLsb' (w : Word) :
    be32 (w.extractLsb' 24 8) (w.extractLsb' 16 8) (w.extractLsb' 8 8) (w.extractLsb' 0 8) = w := by
  refine BitVec.eq_of_getLsbD_eq fun i hi => ?_
  rw [getLsbD_be32 _ _ _ _ hi]
  split_ifs <;> rw [BitVec.getLsbD_extractLsb', decide_eq_true (by omega), Bool.true_and] <;> congr 1 <;> omega

/-- Settles O30: the rotation is the library's, and packing and unpacking undo each other. -/
theorem rotationAndPackingAreInvertible : Obligations.RotationAndPackingAreInvertible :=
  ⟨fun x _ _ h => rotl_eq_rotateLeft x h, beBytes_be32, be32_extractLsb'⟩

end Sys2Proof.Machine
end

section
/-! PROOFS. Where an answered state came from: the inversions of `exec`, of an access of the window and of `step`, and
what each register's writers follow from them (R12 to R28). -/

namespace Sys2Proof.Machine

/-- Where the state an instruction answers came from: a command performed in its phase, a good read, or an error. -/
theorem exec_next_cases {i : Instr} {s t : State} (h : exec i s = .next t) :
    (i = .init ∧ t = s.startMessage.respond none) ∨
    (∃ x, i = .update x ∧ s.phase = .absorbing ∧ t = (s.absorbByte x).respond none) ∨
    (i = .final ∧ s.phase = .absorbing ∧ t = s.finishMessage.respond none) ∨
    (∃ v, t = s.respond (some v)) ∨
    (∃ c rd, (rd = none ∨ rd = some 0) ∧ t = s.raise c rd) := by
  have answer {u : State} (hu : exec i s = .next u) : t = u := Host.Outcome.next.inj (h.symm.trans hu)
  rcases exec_cases i s with
    ⟨hi, hu⟩ | ⟨x, hi, hp, hu⟩ | ⟨hi, hp, hu⟩ | ⟨-, v, hu⟩ | ⟨-, hu⟩ | ⟨-, -, -, hu⟩ | ⟨-, -, -, hu⟩
  · exact .inl ⟨hi, answer hu⟩
  · exact .inr (.inl ⟨x, hi, hp, answer hu⟩)
  · exact .inr (.inr (.inl ⟨hi, hp, answer hu⟩))
  · exact .inr (.inr (.inr (.inl ⟨v, answer hu⟩)))
  · exact .inr (.inr (.inr (.inr ⟨_, _, .inr rfl, answer hu⟩)))
  · exact .inr (.inr (.inr (.inr ⟨_, _, .inl rfl, answer hu⟩)))
  · exact .inr (.inr (.inr (.inr ⟨_, _, .inl rfl, answer hu⟩)))

/-- Where the state after an access of the window came from: its instruction, or the error its decoding gives. -/
theorem performAccess_next_cases {a : Access} {s t : State} (h : performAccess a s = .next t) :
    (∃ i, decode a = .ok i ∧ exec i s.accept = .next t) ∨ ∃ c, t = s.accept.raise c a.errorData := by
  cases hd : decode a with
  | ok i => exact .inl ⟨i, rfl, performAccess_ok hd s ▸ h⟩
  | error r => exact .inr ⟨_, Host.Outcome.next.inj (h.symm.trans (performAccess_error hd s))⟩

/-- R30: the event of an access of the window performs the access. -/
theorem performEvent_selected {a : Access} {s : State} (h : a.selects s.baseIndex = true) :
    performEvent (.access a) s = performAccess a s := by
  rw [performEvent, if_pos h]

/-- R30: the event of an access outside the window is passed over (log 8). -/
theorem performEvent_unselected {a : Access} {s : State} (h : ¬ a.selects s.baseIndex = true) :
    performEvent (.access a) s = .next s := by
  rw [performEvent, if_neg h]

/-- A step whose oldest event is an access of the window performs the access. -/
theorem step_selected {s : State} {a : Access} {rest : List HostEvent} (h : s.host = .access a :: rest)
    (hsel : a.selects s.baseIndex = true) : step s = performAccess a { s with host := rest } :=
  (step_event h).trans (performEvent_selected hsel)

/-- Where the state a step answers came from: nothing to do, an access outside the window, an access of the window, or
hardware reset. -/
theorem step_next_cases {s t : State} (h : step s = .next t) :
    (s.host = [] ∧ t = s) ∨
    (∃ a rest, s.host = .access a :: rest ∧ t = { s with host := rest }) ∨
    (∃ a rest, s.host = .access a :: rest ∧ performAccess a { s with host := rest } = .next t) ∨
    (∃ rest, s.host = .reset :: rest ∧ t = State.hardwareReset { s with host := rest }) := by
  rcases step_cases s with ⟨hh, hs⟩ | ⟨a, rest, hh, -, hs⟩ | ⟨a, rest, i, hh, -, hd, hs⟩
    | ⟨a, rest, r, hh, -, hd, hs⟩ | ⟨rest, hh, hs⟩ | ⟨a, rest, -, hs⟩ | ⟨a, rest, -, hs⟩ <;> rw [h] at hs
  · exact .inl ⟨hh, Host.Outcome.next.inj hs⟩
  · exact .inr (.inl ⟨a, rest, hh, Host.Outcome.next.inj hs⟩)
  · exact .inr (.inr (.inl ⟨a, rest, hh, (performAccess_ok hd _).trans hs.symm⟩))
  · exact .inr (.inr (.inl ⟨a, rest, hh, (performAccess_error hd _).trans hs.symm⟩))
  · exact .inr (.inr (.inr ⟨rest, hh, Host.Outcome.next.inj hs⟩))
  · cases hs
  · cases hs

/-! What an instruction writes, and what it leaves alone. -/

/-- No instruction changes `pc`, BASE or the host's list: the access that carries it does (R27). -/
theorem exec_frame {i : Instr} {s t : State} (h : exec i s = .next t) :
    t.pc = s.pc ∧ t.baseIndex = s.baseIndex ∧ t.host = s.host := by
  rcases exec_next_cases h with ⟨-, rfl⟩ | ⟨x, -, -, rfl⟩ | ⟨-, -, rfl⟩ | ⟨v, rfl⟩ | ⟨c, rd, -, rfl⟩ <;> simp

/-- R14, R15: H and BLK stay under every instruction but the commands. -/
theorem exec_chaining_blk {i : Instr} {s t : State} (h : exec i s = .next t) :
    (t.h = s.h ∧ t.blk = s.blk) ∨ i = .init ∨ (∃ x, i = .update x) ∨ i = .final := by
  rcases exec_next_cases h with ⟨rfl, -⟩ | ⟨x, rfl, -⟩ | ⟨rfl, -⟩ | ⟨v, rfl⟩ | ⟨c, rd, -, rfl⟩ <;> simp

/-- R16, R17: the counter stays under every instruction but INIT and UPDATE. -/
theorem exec_counter {i : Instr} {s t : State} (h : exec i s = .next t) :
    (t.cntLo = s.cntLo ∧ t.cntHi = s.cntHi) ∨ i = .init ∨ ∃ x, i = .update x := by
  rcases exec_next_cases h with ⟨rfl, -⟩ | ⟨x, rfl, -⟩ | ⟨-, -, rfl⟩ | ⟨v, rfl⟩ | ⟨c, rd, -, rfl⟩ <;> simp

/-- R20: the two ways an instruction writes PHASE. -/
theorem exec_phase {i : Instr} {s t : State} (h : exec i s = .next t) :
    t.phase = s.phase ∨ (i = .init ∧ t.phase = .absorbing) ∨
      (i = .final ∧ s.phase = .absorbing ∧ t.phase = .done) := by
  rcases exec_next_cases h with ⟨rfl, rfl⟩ | ⟨x, -, -, rfl⟩ | ⟨rfl, hp, rfl⟩ | ⟨v, rfl⟩ | ⟨c, rd, -, rfl⟩
  · simp
  · simp
  · simp [hp]
  · simp
  · simp

/-- R21, R22: an instruction that raises nothing leaves the error record alone. -/
theorem exec_errorRecord {i : Instr} {s t : State} (h : exec i s = .next t) (hr : t.raised = none) :
    t.err = s.err ∧ t.errCause = s.errCause := by
  rcases exec_next_cases h with ⟨-, rfl⟩ | ⟨x, -, -, rfl⟩ | ⟨-, -, rfl⟩ | ⟨v, rfl⟩ | ⟨c, rd, -, rfl⟩
  · simp
  · simp
  · simp
  · simp
  · simp at hr

/-- Every instruction keeps the invariant. -/
theorem exec_inv {i : Instr} {s t : State} (hs : s.Inv) (h : exec i s = .next t) : t.Inv := by
  rcases exec_next_cases h with ⟨-, rfl⟩ | ⟨x, -, -, rfl⟩ | ⟨-, -, rfl⟩ | ⟨v, rfl⟩ | ⟨c, rd, hrd, rfl⟩
  · exact State.respond_inv hs (by simp) (by simp) (by simp) none
  · exact State.respond_inv hs (State.absorbByte_wf hs.1 x) (by simp) (by simp) none
  · exact State.respond_inv hs (State.finishMessage_wf hs.1) (by simp) (by simp) none
  · exact State.respond_inv hs hs.1 rfl rfl (some v)
  · exact State.raise_inv hs c hrd

/-! What an access of the window does, whatever its outcome. -/

/-- R99: an access that is not performed returns 0 or nothing. -/
theorem errorData_cases (a : Access) : a.errorData = none ∨ a.errorData = some 0 := by
  cases a with
  | write addr size v => exact .inl rfl
  | read addr size => exact .inr rfl

/-- R27: an access of the window advances `pc` by 1, performed or not. -/
theorem performAccess_frame {a : Access} {s t : State} (h : performAccess a s = .next t) :
    t.pc = s.pc + 1 ∧ t.baseIndex = s.baseIndex ∧ t.host = s.host := by
  rcases performAccess_next_cases h with ⟨i, -, hi⟩ | ⟨c, rfl⟩
  · exact exec_frame hi
  · simp

/-- R21, R22: an access of the window that raises nothing leaves the error record alone. -/
theorem performAccess_errorRecord {a : Access} {s t : State} (h : performAccess a s = .next t)
    (hr : t.raised = none) : t.err = s.err ∧ t.errCause = s.errCause := by
  rcases performAccess_next_cases h with ⟨i, -, hi⟩ | ⟨c, rfl⟩
  · exact exec_errorRecord (s := s.accept) hi hr
  · simp at hr

/-- Every access of the window keeps the invariant. -/
theorem performAccess_inv {a : Access} {s t : State} (hs : s.Inv) (h : performAccess a s = .next t) : t.Inv := by
  rcases performAccess_next_cases h with ⟨i, -, hi⟩ | ⟨c, rfl⟩
  · exact exec_inv (s := s.accept) hs hi
  · exact State.raise_inv (s := s.accept) hs c (errorData_cases a)

/-! The statements. -/

/-- Settles O2: the step performs the reset event. -/
theorem hardwareResetLeavesOneState : Obligations.HardwareResetLeavesOneState :=
  fun _ _ h => step_event h

/-- Settles O36, field by field. -/
theorem resetMeetsTheInvariant : Obligations.ResetMeetsTheInvariant :=
  ⟨Memory.wf_nil, by simp, by simp, by simp⟩

/-- Settles O37, by the case of the step: an access keeps the invariant, hardware reset establishes it, and the other
steps change the host's list at most. -/
theorem everyStepKeepsTheInvariant : Obligations.EveryStepKeepsTheInvariant := by
  intro s t hs h
  rcases step_next_cases h with ⟨-, rfl⟩ | ⟨a, rest, -, rfl⟩ | ⟨a, rest, -, ha⟩ | ⟨rest, -, rfl⟩
  · exact hs
  · exact hs
  · exact performAccess_inv (s := { s with host := rest }) hs ha
  · exact resetMeetsTheInvariant

/-- Settles O18: the step performs the access, which was decoded and whose instruction raised nothing. -/
theorem onlyErrorsWriteTheErrorRecord : Obligations.OnlyErrorsWriteTheErrorRecord := by
  intro s t a rest hh hsel h hr
  exact performAccess_errorRecord (s := { s with host := rest }) ((step_selected hh hsel).symm.trans h) hr

/-- Settles O38: every access of the window answers a next state, and each of its outcomes has the same frame. -/
theorem everyAccessCompletesAndAdvancesPc : Obligations.EveryAccessCompletesAndAdvancesPc := by
  refine ⟨State.reset_pc, fun s a rest hh hsel => ?_⟩
  obtain ⟨t, ht⟩ := performAccess_isNext a { s with host := rest }
  obtain ⟨hpc, hbase, hhost⟩ := performAccess_frame ht
  exact ⟨t, (step_selected hh hsel).trans ht, hpc, hhost, hbase⟩

/-- Settles O39, register by register. -/
theorem registersHaveTheirWriters : Obligations.RegistersHaveTheirWriters := by
  intro i s t h
  refine ⟨fun hne => (exec_chaining_blk h).resolve_left fun ⟨hh, hb⟩ => hne.elim (· hh) (· hb),
    fun hne => (exec_counter h).resolve_left fun ⟨hlo, hhi⟩ => hne.elim (· hlo) (· hhi),
    fun hne => ?_, exec_frame h⟩
  rcases exec_phase h with hp | ⟨hi, -⟩ | ⟨hi, -, -⟩
  · exact absurd hp hne
  · exact .inl hi
  · exact .inr hi

/-- Settles O40: of the steps only hardware reset and an access of the window can write PHASE, and of the accesses only
INIT and FINAL. -/
theorem phaseChangesOnlyAsItsTableSays : Obligations.PhaseChangesOnlyAsItsTableSays := by
  intro s t e rest hh h hne
  rcases step_next_cases h with ⟨-, rfl⟩ | ⟨a, _, -, rfl⟩ | ⟨a, _, ha, hperf⟩ | ⟨_, hr, rfl⟩
  · exact absurd rfl hne
  · exact absurd rfl hne
  · obtain ⟨rfl, rfl⟩ := List.cons.inj (hh.symm.trans ha)
    rcases performAccess_next_cases hperf with ⟨i, hd, hi⟩ | ⟨c, rfl⟩
    · rcases exec_phase hi with hp | ⟨rfl, hp⟩ | ⟨rfl, hs, hp⟩
      · exact absurd hp hne
      · simp [hp, hd]
      · simp only [State.accept_phase] at hs
        simp [hp, hs, hd]
    · exact absurd rfl hne
  · obtain ⟨rfl, -⟩ := List.cons.inj (hh.symm.trans hr)
    simp

end Sys2Proof.Machine
end

section
/-! PROOFS. Two states that differ in registers without a value cannot be told apart (R26, R116): a simulation between
them, kept by every step. -/

namespace Sys2Proof.Machine

/-- Two answers of the same kind: next states that are related, or the same reason to stop. -/
inductive AnswersRelated (R : State → State → Prop) : Result → Result → Prop where
  | next {t₁ t₂ : State} (h : R t₁ t₂) : AnswersRelated R (.next t₁) (.next t₂)
  | fault (f : Fault) : AnswersRelated R (.fault f) (.fault f)
  | refused (r : Refusal) : AnswersRelated R (.refused r) (.refused r)

theorem AnswersRelated.refl {R : State → State → Prop} (hR : ∀ s, R s s) (o : Result) : AnswersRelated R o o := by
  cases o with
  | next t => exact .next (hR t)
  | fault f => exact .fault f
  | refused r => exact .refused r

/-- The induction over a run, once for every simulation: related states that show the same response, and whose steps
answer related states, give the host the same values and faults over any number of steps. -/
theorem observations_eq_of_simulation {R : State → State → Prop}
    (hobs : ∀ {s₁ s₂}, R s₁ s₂ → s₁.rdata = s₂.rdata ∧ s₁.raised = s₂.raised)
    (hstep : ∀ {s₁ s₂}, R s₁ s₂ → AnswersRelated R (step s₁) (step s₂)) (k : Nat) :
    ∀ {s₁ s₂}, R s₁ s₂ → returned k s₁ = returned k s₂ ∧ faults k s₁ = faults k s₂ := by
  induction k with
  | zero => exact fun _ => ⟨rfl, rfl⟩
  | succ k ih =>
    intro s₁ s₂ h
    have hanswers := hstep h
    unfold returned faults
    generalize step s₁ = o₁, step s₂ = o₂ at hanswers ⊢
    cases hanswers with
    | next ht =>
      obtain ⟨hrdata, hraised⟩ := hobs ht
      obtain ⟨hreturned, hfaults⟩ := ih ht
      simp [hrdata, hraised, hreturned, hfaults]
    | fault f => exact ⟨rfl, rfl⟩
    | refused r => exact ⟨rfl, rfl⟩

/-- The state with the data registers (R14 to R17) of another. -/
def State.withData (s d : State) : State := { s with h := d.h, blk := d.blk, cntLo := d.cntLo, cntHi := d.cntHi }

/-- States equal outside the data registers are one state with either's data registers. -/
theorem State.eq_withData {s t : State} (h : s.sameOutside t) : t = s.withData t := by
  obtain ⟨hphase, herr, hcause, hpc, hrdata, hraised, hbase, hhost⟩ := h
  simp only [State.withData, hphase, herr, hcause, hpc, hrdata, hraised, hbase, hhost]

/-- Equal, or in UNINIT and equal outside the registers that have no value there (R26). -/
def State.SameButUnset (s t : State) : Prop := t = s ∨ (s.phase = .uninit ∧ ∃ d, t = s.withData d)

theorem State.SameButUnset.refl (s : State) : s.SameButUnset s := .inl rfl

theorem State.sameButUnset_withData {s : State} (h : s.phase = .uninit) (d : State) :
    s.SameButUnset (s.withData d) := .inr ⟨h, d, rfl⟩

/-- The response and its fault are no data registers. -/
theorem State.SameButUnset.response {s t : State} (h : s.SameButUnset t) :
    s.rdata = t.rdata ∧ s.raised = t.raised := by
  rcases h with rfl | ⟨-, d, rfl⟩ <;> exact ⟨rfl, rfl⟩

/-- In UNINIT every instruction but INIT and RD STATUS raises an error that does not depend on the state (R101, R105). -/
theorem exec_uninit (i : Instr) :
    i = .init ∨ i = .rdStatus ∨ ∃ c rd, ∀ s : State, s.phase = .uninit → exec i s = .next (s.raise c rd) := by
  cases i with
  | init => exact .inl rfl
  | rdStatus => exact .inr (.inl rfl)
  | update x =>
    exact .inr (.inr ⟨.cmdBeforeInit, none, fun s hp => by simp [exec, execUpdate, State.whileAbsorbing, hp]⟩)
  | final =>
    exact .inr (.inr ⟨.cmdBeforeInit, none, fun s hp => by simp [exec, execFinal, State.whileAbsorbing, hp]⟩)
  | rdCountLo | rdCountHi =>
    exact .inr (.inr ⟨.readNoValue, some 0, fun s hp => by
      simp [exec, execRdCountLo, execRdCountHi, State.readWhen, hp]⟩)
  | rdDigest0 | rdDigest1 | rdDigest2 | rdDigest3 | rdDigest4 =>
    exact .inr (.inr ⟨.readNoValue, some 0, fun s hp => by
      simp [exec, execRdDigest0, execRdDigest1, execRdDigest2, execRdDigest3, execRdDigest4, State.readWhen, hp]⟩)

/-- No instruction in UNINIT reads a data register: INIT overwrites them all, RD STATUS and the errors leave them. -/
theorem exec_withData (i : Instr) {s : State} (hp : s.phase = .uninit) (d : State) :
    AnswersRelated State.SameButUnset (exec i s) (exec i (s.withData d)) := by
  rcases exec_uninit i with rfl | rfl | ⟨c, rd, hraise⟩
  · exact .next (.refl (s.startMessage.respond none))
  · exact .next (State.sameButUnset_withData (s := s.respond (some s.status)) hp d)
  · rw [hraise s hp, hraise (s.withData d) hp]
    exact .next (State.sameButUnset_withData (s := s.raise c rd) hp d)

/-- No access of the window in UNINIT reads a data register. -/
theorem performAccess_withData (a : Access) {s : State} (hp : s.phase = .uninit) (d : State) :
    AnswersRelated State.SameButUnset (performAccess a s) (performAccess a (s.withData d)) := by
  cases hd : decode a with
  | ok i =>
    rw [performAccess_ok hd, performAccess_ok hd]
    exact exec_withData i (s := s.accept) hp d
  | error r =>
    rw [performAccess_error hd, performAccess_error hd]
    exact .next (State.sameButUnset_withData (s := s.accept.raise (rejectCause r) a.errorData) hp d)

/-- No event in UNINIT reads a data register; hardware reset writes them all. -/
theorem performEvent_withData (e : HostEvent) {s : State} (hp : s.phase = .uninit) (d : State) :
    AnswersRelated State.SameButUnset (performEvent e s) (performEvent e (s.withData d)) := by
  cases e with
  | access a =>
    have hbase : (s.withData d).baseIndex = s.baseIndex := rfl
    by_cases hsel : a.selects s.baseIndex = true
    · rw [performEvent_selected hsel, performEvent_selected (hbase ▸ hsel)]
      exact performAccess_withData a hp d
    · rw [performEvent_unselected hsel, performEvent_unselected (hbase ▸ hsel)]
      exact .next (State.sameButUnset_withData hp d)
  | reset => exact .next (.refl s.hardwareReset)
  | resetDuring a => exact .refused .resetDuringAccess
  | interleaved a => exact .refused .interleavedMaster

/-- The simulation: a step takes related states to related states, or refuses both. -/
theorem step_sameButUnset {s t : State} (h : s.SameButUnset t) :
    AnswersRelated State.SameButUnset (step s) (step t) := by
  rcases h with rfl | ⟨hp, d, rfl⟩
  · exact .refl .refl (step t)
  · have hhost : (s.withData d).host = s.host := rfl
    cases hh : s.host with
    | nil =>
      rw [step_idle hh, step_idle (hhost.trans hh)]
      exact .next (State.sameButUnset_withData hp d)
    | cons e rest =>
      rw [step_event hh, step_event (hhost.trans hh)]
      exact performEvent_withData e (s := { s with host := rest }) hp d

/-- Settles O44, by the simulation `State.SameButUnset`. -/
theorem registersWithoutValueAreUnobservable : Obligations.RegistersWithoutValueAreUnobservable :=
  fun _ _ k hp h => observations_eq_of_simulation State.SameButUnset.response step_sameButUnset k
    (.inr ⟨hp, _, State.eq_withData h⟩)

end Sys2Proof.Machine
end

section
/-! PROOFS. The digest's bytes (R10, R37). -/

namespace Sys2Proof.Machine

/-- R10: byte `j` of a word, the most significant first, as a number. -/
theorem beBytes_getD_toNat (w : Word) {j : Nat} (h : j < 4) :
    ((beBytes w).getD j 0).toNat = w.toNat / 256 ^ (3 - j) % 256 := by
  have byte (k : Nat) : (w.extractLsb' k 8).toNat = w.toNat / 2 ^ k % 256 := by
    rw [BitVec.extractLsb'_toNat, Nat.shiftRight_eq_div_pow]
  obtain rfl | rfl | rfl | rfl : j = 0 ∨ j = 1 ∨ j = 2 ∨ j = 3 := by omega
  · exact byte 24
  · exact byte 16
  · exact byte 8
  · exact byte 0

/-- R37: byte `k` of serialized words is byte `k mod 4` of word `k div 4`. -/
theorem serialize_getD (ws : List Word) (k : Nat) (h : k < 4 * ws.length) :
    (serialize ws).getD k 0 = (beBytes (ws.getD (k / 4) 0)).getD (k % 4) 0 := by
  have four (w : Word) : (beBytes w).length = 4 := rfl
  induction ws generalizing k with
  | nil => exact absurd h (Nat.not_lt_zero k)
  | cons w ws ih =>
    rw [serialize, List.flatMap_cons]
    by_cases hk : k < 4
    · rw [List.getD_append _ _ _ _ (four w ▸ hk), Nat.div_eq_of_lt hk, Nat.mod_eq_of_lt hk, List.getD_cons_zero]
    · obtain ⟨k, rfl⟩ := Nat.exists_eq_add_of_le' (Nat.le_of_not_lt hk)
      rw [List.getD_append_right _ _ _ _ (by simp [four]), four, Nat.add_sub_cancel, Nat.add_div_right _ (by decide),
        Nat.add_mod_right, List.getD_cons_succ]
      exact ih k (by rw [List.length_cons] at h; omega)

/-- Settles O35: the digest is the five words serialized. -/
theorem digestIsSerializedBigEndian : Obligations.DigestIsSerializedBigEndian := by
  refine fun c => ⟨rfl, fun k hk => ?_, rfl⟩
  calc (c.digestBytes.getD k 0).toNat
      = ((beBytes (c.words.getD (k / 4) 0)).getD (k % 4) 0).toNat := congrArg _ (serialize_getD c.words k hk)
    _ = _ := beBytes_getD_toNat _ (Nat.mod_lt k (by decide))

end Sys2Proof.Machine
end

section
/-! PROOFS. The split counter is one 64-bit counter (R46, R47, R69). -/

namespace Sys2Proof.Machine

/-- R46, R47: an absorbed byte adds 1 to COUNT64, modulo 2^64. -/
theorem State.absorbByte_count64 (s : State) (x : Byte) :
    (s.absorbByte x).count64 = (s.count64 + 1) % 2 ^ 64 := by
  have zero : (0 : Word).toNat = 0 := rfl
  have one : (1 : Word).toNat = 1 := rfl
  have wraps : s.cntLo + 1 = 0 ↔ s.cntLo.toNat = 2 ^ 32 - 1 := by
    rw [BitVec.toNat_eq, BitVec.toNat_add, zero, one]
    omega
  simp only [State.count64, State.absorbByte_cntLo, State.absorbByte_cntHi, wraps]
  split <;> simp only [BitVec.toNat_add, one] <;> omega

/-- R69: the two length words are 8 times the counter they are formed from, modulo 2^64. -/
theorem length_toNat (hi lo : Word) :
    2 ^ 32 * (lengthHi hi lo).toNat + (lengthLo lo).toNat = 8 * (hi.toNat * 2 ^ 32 + lo.toNat) % 2 ^ 64 := by
  have hiWord : (lengthHi hi lo).toNat = 8 * hi.toNat % 2 ^ 32 + lo.toNat / 2 ^ 29 := by
    have shifted : (hi <<< 3).toNat = (hi.toNat % 2 ^ 29) <<< 3 := by
      rw [BitVec.toNat_shiftLeft, Nat.shiftLeft_eq, Nat.shiftLeft_eq]
      omega
    rw [lengthHi, BitVec.toNat_or, shifted, BitVec.toNat_ushiftRight, Nat.shiftRight_eq_div_pow,
      ← Nat.shiftLeft_add_eq_or_of_lt (by omega), Nat.shiftLeft_eq]
    omega
  have loWord : (lengthLo lo).toNat = 8 * lo.toNat % 2 ^ 32 := by
    rw [lengthLo, BitVec.toNat_shiftLeft, Nat.shiftLeft_eq, Nat.mul_comm]
  rw [hiWord, loWord]
  omega

/-- R10: reading a word's bytes after others, big-endian, appends its 32 bits to their number. -/
theorem foldl_beBytes (n : Nat) (w : Word) :
    (beBytes w).foldl (fun n b => 256 * n + b.toNat) n = 2 ^ 32 * n + w.toNat := by
  simp only [beBytes, List.foldl_cons, List.foldl_nil, BitVec.extractLsb'_toNat, Nat.shiftRight_eq_div_pow]
  omega

/-- R68, R69: after FINAL the last eight bytes of BLK are those of the length words. -/
theorem State.finishMessage_lengthBytes {s : State} (h : s.blk.wf = true) :
    (List.range 8).map (fun i => s.finishMessage.blk.read (56 + i))
      = beBytes (lengthHi s.cntHi s.cntLo) ++ beBytes (lengthLo s.cntLo) := by
  have suffixByte (i : Nat) (hi : i < 8) : s.finishMessage.blk.read (56 + i)
      = (beBytes (lengthHi s.cntHi s.cntLo) ++ beBytes (lengthLo s.cntLo)).getD i 0 := by
    rw [State.finishMessage_blk, State.writeLength_read (State.makeRoom_wf (State.padBlock_wf h)),
      if_pos (by omega), Nat.add_sub_cancel_left, State.makeRoom_cntHi, State.makeRoom_cntLo, State.padBlock_cntHi,
      State.padBlock_cntLo]
  rw [List.map_congr_left fun i hi => suffixByte i (List.mem_range.mp hi)]
  rfl

/-- Settles O31: UPDATE absorbs the byte, and FINAL writes the length words. -/
theorem splitCounterIsOneCounter : Obligations.SplitCounterIsOneCounter := by
  intro s hw hp
  have performed (command : State → State) : s.whileAbsorbing command = command s := by
    rw [State.whileAbsorbing, hp]
  refine ⟨fun x => ⟨(s.absorbByte x).respond none, congrArg _ (performed _), s.absorbByte_count64 x⟩,
    s.finishMessage.respond none, congrArg _ (performed _), ?_⟩
  calc (List.range 8).foldl (fun n i => 256 * n + (s.finishMessage.blk.read (56 + i)).toNat) 0
      = ((List.range 8).map fun i => s.finishMessage.blk.read (56 + i)).foldl (fun n b => 256 * n + b.toNat) 0 :=
        List.foldl_map.symm
    _ = 2 ^ 32 * (lengthHi s.cntHi s.cntLo).toNat + (lengthLo s.cntLo).toNat := by
        rw [State.finishMessage_lengthBytes hw, List.foldl_append, foldl_beBytes, foldl_beBytes, Nat.mul_zero,
          Nat.zero_add]
    _ = 8 * s.count64 % 2 ^ 64 := length_toNat s.cntHi s.cntLo

end Sys2Proof.Machine
end

section
/-! PROOFS. The register reads (R38, R89). -/

namespace Sys2Proof.Machine

/-- R89: a read is allowed or not, and has its value, whatever the response of the access before it. -/
theorem exec_read {i : Instr} (h : i.isRead) (s : State) :
    ∃ allowed v, exec i s = .next (s.readWhen allowed v)
      ∧ ∀ rd, exec i (s.respond rd) = .next ((s.respond rd).readWhen allowed v) := by
  rcases h with rfl | rfl | rfl | rfl | rfl | rfl | rfl | rfl
  · exact ⟨true, s.status, rfl, fun _ => rfl⟩
  all_goals exact ⟨_, _, rfl, fun _ => rfl⟩

/-- R38: a read leaves the data registers and PHASE alone, allowed or not. -/
theorem State.sameMessage_readWhen (s : State) (allowed : Bool) (v : Word) :
    s.sameMessage (s.readWhen allowed v) := by
  rcases s.readWhen_cases allowed v with ⟨-, hr⟩ | ⟨-, hr⟩ <;> rw [hr] <;> exact ⟨rfl, rfl, rfl, rfl, rfl⟩

/-- Settles O10: a good read only responds, and a read of a value that does not exist only raises. -/
theorem readsHaveNoSideEffectOnTheMessage : Obligations.ReadsHaveNoSideEffectOnTheMessage := by
  intro i s hi
  obtain ⟨allowed, v, hread, hagain⟩ := exec_read hi s
  obtain ⟨hpc, hbase, hhost⟩ := exec_frame hread
  refine ⟨s.readWhen allowed v, hread, s.sameMessage_readWhen allowed v, hpc, hbase, hhost, ?_⟩
  rcases s.readWhen_cases allowed v with ⟨rfl, hr⟩ | ⟨-, hr⟩ <;> rw [hr]
  · exact ⟨fun _ => ⟨rfl, rfl, hagain (some v)⟩, fun hne => absurd rfl hne⟩
  · exact ⟨fun hnone => absurd hnone (by simp), fun _ => ⟨rfl, rfl, rfl⟩⟩

end Sys2Proof.Machine
end

section
/-! PROOFS. What one access does, inside the window and outside it (R30, R32, R41, R113), and that it does not depend on
the accesses to come. -/

namespace Sys2Proof.Machine

/-- Settles O21: the step performs the access, which decodes to the instruction. -/
theorem stepRunsTheDecodedInstruction : Obligations.StepRunsTheDecodedInstruction :=
  fun _ _ _ _ hh hsel hd _ => (step_selected hh hsel).trans (performAccess_ok hd _)

/-- R30, R32: the window at BASE is its 0x100 bytes. -/
theorem selects_iff (a : Access) (k : Nat) :
    a.selects k = true ↔ 256 * k ≤ a.addr ∧ a.addr < 256 * k + 256 := by
  rw [Access.selects, beq_iff_eq, Config.windowBytes]
  omega

/-- Settles O46: a window is its addresses, and the event of an access outside it is passed over. -/
theorem accessesElsewhereDoNotReachTheBlock : Obligations.AccessesElsewhereDoNotReachTheBlock := by
  refine ⟨fun a j k hj hk => ?_, selects_iff, fun s a rest hh hsel => ?_⟩
  · rw [selects_iff] at hj hk
    omega
  · exact (step_event hh).trans (performEvent_unselected (ne_true_of_eq_false hsel))

/-! No operation of an access reads the host's list: issuing accesses commutes with it. -/

theorem State.whileAbsorbing_issuing {s : State} {as : List Access} {command : State → State}
    (h : command (s.issuing as) = (command s).issuing as) :
    (s.issuing as).whileAbsorbing command = (s.whileAbsorbing command).issuing as := by
  rw [State.whileAbsorbing, State.whileAbsorbing, State.issuing_phase]
  cases s.phase with
  | uninit => rfl
  | absorbing => exact h
  | done => rfl

theorem State.readWhen_issuing (s : State) (as : List Access) (allowed : Bool) (v : Word) :
    (s.issuing as).readWhen allowed v = (s.readWhen allowed v).issuing as := by
  cases allowed <;> rfl

theorem State.absorbByte_issuing (s : State) (as : List Access) (x : Byte) :
    (s.issuing as).absorbByte x = (s.absorbByte x).issuing as := by
  by_cases h : (s.memWrite s.fill x).advanceCount.fill = 0
  · rw [State.absorbByte, State.absorbByte, if_pos h]
    exact if_pos h
  · rw [State.absorbByte, State.absorbByte, if_neg h]
    exact if_neg h

theorem State.makeRoom_issuing (s : State) (as : List Access) :
    (s.issuing as).makeRoom = s.makeRoom.issuing as := by
  by_cases h : 55 < s.fill
  · rw [State.makeRoom, State.makeRoom, if_pos h]
    exact if_pos h
  · rw [State.makeRoom, State.makeRoom, if_neg h]
    exact if_neg h

theorem State.finishMessage_issuing (s : State) (as : List Access) :
    (s.issuing as).finishMessage = s.finishMessage.issuing as :=
  congrArg (fun u : State => u.writeLength.compressBlk.setPhase .done) (s.padBlock.makeRoom_issuing as)

/-- No instruction reads the host's list. -/
theorem exec_issuing {i : Instr} {s t : State} (as : List Access) (h : exec i s = .next t) :
    exec i (s.issuing as) = .next (t.issuing as) := by
  cases i <;> obtain rfl := Host.Outcome.next.inj h <;> refine congrArg Host.Outcome.next ?_
  case init => rfl
  case update x => exact State.whileAbsorbing_issuing (congrArg (·.respond none) (s.absorbByte_issuing as x))
  case final => exact State.whileAbsorbing_issuing (congrArg (·.respond none) (s.finishMessage_issuing as))
  case rdStatus => rfl
  all_goals exact s.readWhen_issuing as _ _

/-- No access of the window reads the host's list. -/
theorem performAccess_issuing {a : Access} {s t : State} (as : List Access) (h : performAccess a s = .next t) :
    performAccess a (s.issuing as) = .next (t.issuing as) := by
  cases hd : decode a with
  | ok i =>
    rw [performAccess_ok hd] at h ⊢
    exact exec_issuing as h
  | error r =>
    rw [performAccess_error hd] at h ⊢
    obtain rfl := Host.Outcome.next.inj h
    rfl

/-! A run of accesses. -/

/-- The state after an access of the window is the one the access answers. -/
theorem afterAccess_selected {a : Access} {s t : State} (hsel : a.selects s.baseIndex = true)
    (h : performAccess a s = .next t) : afterAccess s a = t := by
  rw [afterAccess, if_pos hsel, h]

/-- R41: the state after an access does not depend on the accesses to come. -/
theorem afterAccess_issuing (s : State) (as : List Access) (a : Access) :
    afterAccess (s.issuing as) a = (afterAccess s a).issuing as := by
  by_cases hsel : a.selects s.baseIndex = true
  · obtain ⟨t, ht⟩ := performAccess_isNext a s
    rw [afterAccess_selected hsel ht]
    exact afterAccess_selected hsel (performAccess_issuing as ht)
  · rw [afterAccess, afterAccess, State.issuing_baseIndex, if_neg hsel, if_neg hsel]

/-- R41: a step performs the first of the accesses to come. -/
theorem step_issuing_cons (s : State) (a : Access) (as : List Access) :
    step (s.issuing (a :: as)) = .next ((afterAccess s a).issuing as) := by
  refine (step_event (rest := as.map .access) rfl).trans ?_
  by_cases hsel : a.selects s.baseIndex = true
  · obtain ⟨t, ht⟩ := performAccess_isNext a s
    rw [afterAccess_selected hsel ht]
    exact (performEvent_selected (s := s.issuing as) hsel).trans (performAccess_issuing as ht)
  · rw [afterAccess, if_neg hsel]
    exact performEvent_unselected (s := s.issuing as) hsel

/-- A run takes its first step, then the rest. -/
theorem run_succ_of_step (M : Host.Core) {s t : M.State} (k : Nat) (h : M.step s = .next t) :
    M.run (k + 1) s = M.run k t := by
  rw [Host.Core.run, h]

/-- R122: a run performs its first access, then the rest. -/
theorem runAccesses_cons (s : State) (a : Access) (as : List Access) :
    runAccesses (a :: as) s = runAccesses as (afterAccess s a) :=
  run_succ_of_step core as.length (step_issuing_cons s a as)

/-- Settles O43, by induction on the accesses. -/
theorem runIsALeftFold : Obligations.RunIsALeftFold := by
  intro as
  induction as with
  | nil => exact fun _ => rfl
  | cons a as ih =>
    intro s
    rw [runAccesses_cons, ih, List.foldl_cons]
    exact congrArg (fun u => Host.Outcome.next (as.foldl afterAccess u)) (afterAccess_issuing s [] a).symm

end Sys2Proof.Machine
end

section
/-! PROOFS. The decoder and the encoder agree, and both agree with the opcode table (R48 to R53). -/

namespace Sys2Proof

/-! A word written to CMD (R48, R49, R51), as a number. -/

theorem cmdOp_toNat (v : Word) : (cmdOp v).toNat = v.toNat % 256 := by
  rw [cmdOp, BitVec.extractLsb'_toNat, Nat.shiftRight_zero]

theorem cmdData_toNat (v : Word) : (cmdData v).toNat = v.toNat / 256 % 256 := by
  rw [cmdData, BitVec.extractLsb'_toNat, Nat.shiftRight_eq_div_pow]

theorem cmdRsv_toNat (v : Word) : (cmdRsv v).toNat = v.toNat / 65536 := by
  rw [cmdRsv, BitVec.extractLsb'_toNat, Nat.shiftRight_eq_div_pow]
  omega

/-- R51: the legal words. -/
theorem legal_iff (v : Word) :
    legal v = true ↔ v.toNat = 1 ∨ v.toNat = 3 ∨ (v.toNat % 256 = 2 ∧ v.toNat < 65536) := by
  have upper : (v.extractLsb' 8 24).toNat = v.toNat / 256 := by
    rw [BitVec.extractLsb'_toNat, Nat.shiftRight_eq_div_pow]
    omega
  simp only [legal, Bool.or_eq_true, Bool.and_eq_true, beq_iff_eq, BitVec.toNat_eq, cmdOp_toNat, cmdRsv_toNat, upper,
    BitVec.ofNat_eq_ofNat, BitVec.toNat_ofNat]
  omega

/-- R49, R51: what a word decodes to. -/
theorem decodeCommand_eq (v : Word) :
    decodeCommand v
      = if v.toNat = 1 then .ok .init
        else if v.toNat = 3 then .ok .final
        else if v.toNat % 256 = 2 ∧ v.toNat < 65536 then .ok (.update (cmdData v))
        else .error .illegalCmd := by
  have hl := legal_iff v
  rcases decodeCommand_cases v with ⟨hn, hd⟩ | ⟨hy, hop, hd⟩ | ⟨hy, hop, hd⟩ | ⟨hy, hop, hd⟩ <;> rw [hd]
  · rw [hn] at hl
    split_ifs <;> simp_all
  all_goals
    simp only [hy, true_iff, BitVec.toNat_eq, cmdOp_toNat, BitVec.ofNat_eq_ofNat, BitVec.toNat_ofNat] at hl hop
    split_ifs <;> first | rfl | omega

theorem decodeCommand_init_iff (v : Word) : decodeCommand v = .ok .init ↔ v.toNat = 1 := by
  rw [decodeCommand_eq]
  split_ifs <;> simp [*]

theorem decodeCommand_update_iff (v : Word) (x : Byte) :
    decodeCommand v = .ok (.update x) ↔ v.toNat = 2 + 256 * x.toNat := by
  have data : cmdData v = x ↔ v.toNat / 256 % 256 = x.toNat := by rw [BitVec.toNat_eq, cmdData_toNat]
  have hx := x.isLt
  rw [decodeCommand_eq]
  split_ifs <;> simp only [Except.ok.injEq, Instr.update.injEq, reduceCtorEq, data, false_iff] <;> omega

theorem decodeCommand_final_iff (v : Word) : decodeCommand v = .ok .final ↔ v.toNat = 3 := by
  rw [decodeCommand_eq]
  split_ifs <;> simp [*]

theorem decodeCommand_error_iff (v : Word) :
    decodeCommand v = .error .illegalCmd ↔ v.toNat ≠ 1 ∧ v.toNat ≠ 3 ∧ ¬ (v.toNat % 256 = 2 ∧ v.toNat < 65536) := by
  rw [decodeCommand_eq]
  split_ifs <;> simp [*]

/-- R53: no word decodes to a read. -/
theorem decodeCommand_isCommand {v : Word} {i : Instr} (h : decodeCommand v = .ok i) : commandWord i ≠ none := by
  rw [decodeCommand_eq] at h
  split_ifs at h <;> obtain rfl := Except.ok.inj h <;> simp [commandWord]

/-- R49: UPDATE's word, as a number. -/
theorem updateWord_toNat (x : Byte) : (x.setWidth 32 <<< 8 ||| 0x00000002 : Word).toNat = 2 + 256 * x.toNat := by
  have shifted : (x.setWidth 32 <<< 8 : Word).toNat = x.toNat <<< 8 := by
    rw [BitVec.toNat_shiftLeft, BitVec.toNat_setWidth, Nat.shiftLeft_eq]
    omega
  have two : (0x00000002 : Word).toNat = 2 := rfl
  rw [BitVec.toNat_or, shifted, two, ← Nat.shiftLeft_add_eq_or_of_lt (by decide), Nat.shiftLeft_eq]
  omega

/-- R49, R51: a word decodes to the command whose word it is. -/
theorem decodeCommand_ok_iff (v : Word) (i : Instr) : decodeCommand v = .ok i ↔ commandWord i = some v := by
  have word (w : Word) : some w = some v ↔ v.toNat = w.toNat := by rw [Option.some.injEq, eq_comm, BitVec.toNat_eq]
  cases i with
  | init => exact (decodeCommand_init_iff v).trans (word 1).symm
  | update x => rw [decodeCommand_update_iff, commandWord, word, updateWord_toNat]
  | final => exact (decodeCommand_final_iff v).trans (word 3).symm
  | rdStatus | rdCountLo | rdCountHi | rdDigest0 | rdDigest1 | rdDigest2 | rdDigest3 | rdDigest4 =>
    exact iff_of_false (fun h => decodeCommand_isCommand h rfl) nofun

/-- Settles O24, clause by clause from `decodeCommand_eq`. -/
theorem everyWordIsOneCommandOrIllegal : Obligations.EveryWordIsOneCommandOrIllegal := fun v =>
  ⟨decodeCommand_init_iff v, decodeCommand_update_iff v, decodeCommand_final_iff v, decodeCommand_error_iff v, by
    rw [legal_iff, ne_eq, decodeCommand_error_iff]
    tauto⟩

/-! An access (R33, R52, R53). -/

/-- R53: an offset decodes to the read issued there. -/
theorem decodeRead_ok_iff (off : BitVec 8) (i : Instr) :
    decodeRead off = .ok i ↔ commandWord i = none ∧ off.toNat = i.offset := by
  constructor
  · intro h
    unfold decodeRead at h
    split_ifs at h with hoff hoff hoff hoff hoff hoff hoff hoff <;> obtain rfl := Except.ok.inj h <;>
      exact ⟨rfl, congrArg BitVec.toNat (beq_iff_eq.mp hoff)⟩
  · rintro ⟨hi, hoff⟩
    obtain rfl : off = BitVec.ofNat 8 i.offset := by rw [← hoff, BitVec.ofNat_toNat, BitVec.setWidth_eq]
    cases i with
    | init | update _ | final => cases hi
    | rdStatus | rdCountLo | rdCountHi | rdDigest0 | rdDigest1 | rdDigest2 | rdDigest3 | rdDigest4 => rfl

theorem Access.off_toNat (a : Access) : a.off.toNat = a.addr % 256 := by
  cases a <;> rfl

/-- R33: the shape of an access, in its address and its size. -/
theorem Access.wellShaped_iff (a : Access) : a.wellShaped = true ↔ a.size = 4 ∧ a.addr % 4 = 0 := by
  have low : (a.off.extractLsb' 0 2).toNat = a.addr % 4 := by
    rw [BitVec.extractLsb'_toNat, a.off_toNat, Nat.shiftRight_zero]
    omega
  rw [Access.wellShaped, Bool.and_eq_true, beq_iff_eq, beq_iff_eq, BitVec.toNat_eq, low]
  rfl

/-- R48, R49: which writes are commands. -/
theorem decode_write_ok_iff (addr size : Nat) (v : Word) (i : Instr) :
    decode (.write addr size v) = .ok i ↔ size = 4 ∧ addr % 256 = 0 ∧ commandWord i = some v := by
  have zero : (Access.write addr size v).off = 0 ↔ addr % 256 = 0 := by rw [BitVec.toNat_eq, Access.off_toNat]; rfl
  have shape := Access.wellShaped_iff (.write addr size v)
  by_cases hw : (Access.write addr size v).wellShaped = true
  · obtain ⟨hsize, -⟩ := shape.mp hw
    have hsize : size = 4 := hsize
    rw [decode_write hw, ← decodeCommand_ok_iff]
    by_cases hoff : addr % 256 = 0
    · rw [if_pos (beq_iff_eq.mpr (zero.mpr hoff))]
      simp only [hsize, hoff, true_and]
    · rw [if_neg fun h => hoff (zero.mp (beq_iff_eq.mp h))]
      exact iff_of_false nofun fun ⟨_, h, _⟩ => hoff h
  · rw [decode_of_not_wellShaped (Bool.eq_false_of_not_eq_true hw)]
    refine iff_of_false nofun fun ⟨hsize, hoff, _⟩ => hw (shape.mpr ⟨hsize, ?_⟩)
    show addr % 4 = 0
    omega

/-- R33, R53: every read is at a multiple of 4. -/
theorem Instr.offset_mod_four (i : Instr) : i.offset % 4 = 0 := by
  cases i <;> rfl

/-- R53: which reads are instructions. -/
theorem decode_read_ok_iff (addr size : Nat) (i : Instr) :
    decode (.read addr size) = .ok i ↔ size = 4 ∧ commandWord i = none ∧ addr % 256 = i.offset := by
  have shape := Access.wellShaped_iff (.read addr size)
  by_cases hw : (Access.read addr size).wellShaped = true
  · obtain ⟨hsize, -⟩ := shape.mp hw
    rw [decode_read hw, decodeRead_ok_iff, Access.off_toNat]
    exact (and_iff_right hsize).symm
  · rw [decode_of_not_wellShaped (Bool.eq_false_of_not_eq_true hw)]
    refine iff_of_false nofun fun ⟨hsize, _, hoff⟩ => hw (shape.mpr ⟨hsize, ?_⟩)
    have haligned := i.offset_mod_four
    show addr % 4 = 0
    omega

/-! The encoder (R32, R48, R53). -/

/-- R33, R53: every offset is in the window. -/
theorem Instr.offset_lt (i : Instr) : i.offset < 256 := by
  cases i with
  | update x => exact Nat.zero_lt_succ 255
  | _ => decide

/-- R32, R48: the commands are issued at offset 0. -/
theorem Instr.offset_of_command {i : Instr} {v : Word} (h : commandWord i = some v) : i.offset = 0 := by
  cases i with
  | init | update _ | final => rfl
  | rdStatus | rdCountLo | rdCountHi | rdDigest0 | rdDigest1 | rdDigest2 | rdDigest3 | rdDigest4 => cases h

theorem encode_command {i : Instr} {v : Word} (h : commandWord i = some v) (k : Nat) :
    encode k i = .write (256 * k) 4 v := by
  rw [encode, h, Instr.offset_of_command h]
  rfl

theorem encode_read {i : Instr} (h : commandWord i = none) (k : Nat) :
    encode k i = .read (256 * k + i.offset) 4 := by
  rw [encode, h]
  rfl

/-- R30: an encoded access is in its block's window. -/
theorem encode_selects (k : Nat) (i : Instr) : (encode k i).selects k = true := by
  have hlt := i.offset_lt
  rw [Machine.selects_iff]
  cases h : commandWord i with
  | some v => rw [encode_command h, Access.addr]; omega
  | none => rw [encode_read h, Access.addr]; omega

theorem decode_encode (k : Nat) (i : Instr) : decode (encode k i) = .ok i := by
  have hlt := i.offset_lt
  cases h : commandWord i with
  | some v => rw [encode_command h, decode_write_ok_iff]; exact ⟨rfl, Nat.mul_mod_right 256 k, h⟩
  | none => rw [encode_read h, decode_read_ok_iff]; exact ⟨rfl, h, by omega⟩

/-- An access of the window that decodes to an instruction is the access that issues it. -/
theorem eq_encode_of_decode {k : Nat} {a : Access} {i : Instr} (hsel : a.selects k = true) (h : decode a = .ok i) :
    a = encode k i := by
  rw [Machine.selects_iff] at hsel
  cases a with
  | write addr size v =>
    rw [Access.addr] at hsel
    obtain ⟨rfl, hoff, hi⟩ := (decode_write_ok_iff addr size v i).mp h
    rw [encode_command hi, show addr = 256 * k by omega]
  | read addr size =>
    rw [Access.addr] at hsel
    obtain ⟨rfl, hi, hoff⟩ := (decode_read_ok_iff addr size i).mp h
    rw [encode_read hi, show addr = 256 * k + i.offset by omega]

/-- Settles O23, both ways. -/
theorem encodeAndDecodeAgree : Obligations.EncodeAndDecodeAgree :=
  ⟨fun k i _ => ⟨encode_selects k i, decode_encode k i⟩, fun _ _ _ => eq_encode_of_decode⟩

/-- Settles O22, by evaluation of the decoder. -/
theorem sampleEncodingsDecode : Obligations.SampleEncodingsDecode := by
  unfold Obligations.SampleEncodingsDecode
  decide

/-! The opcode table (R53). -/

/-- Some instruction, constructor by constructor. -/
theorem exists_instr {p : Instr → Prop} :
    (∃ i, p i) ↔ p .init ∨ (∃ x, p (.update x)) ∨ p .final ∨ p .rdStatus ∨ p .rdCountLo ∨ p .rdCountHi
      ∨ p .rdDigest0 ∨ p .rdDigest1 ∨ p .rdDigest2 ∨ p .rdDigest3 ∨ p .rdDigest4 := by
  constructor
  · rintro ⟨i, hi⟩
    cases i with
    | update x => exact .inr (.inl ⟨x, hi⟩)
    | _ => simp only [hi, true_or, or_true]
  · rintro (h | ⟨x, h⟩ | h | h | h | h | h | h | h | h | h) <;> exact ⟨_, h⟩

/-- R53: the mask of a read row keeps the whole offset. -/
theorem offset_matches_iff (a : Access) (p : Word) :
    a.off.setWidth 32 &&& 0xFF = p ↔ a.addr % 256 = p.toNat := by
  have mask : (0xFF : Word).toNat = 2 ^ 8 - 1 := rfl
  have kept : (a.off.setWidth 32 &&& 0xFF : Word).toNat = a.addr % 256 := by
    rw [BitVec.toNat_and, mask, Nat.and_two_pow_sub_one_eq_mod, BitVec.toNat_setWidth, a.off_toNat]
    omega
  rw [BitVec.toNat_eq, kept]

/-- R50: UPDATE's mask clears DATA and keeps OP and RSV. -/
theorem update_matches_iff (v : Word) :
    v &&& 0xFFFF00FF = 0x00000002 ↔ ∃ x, commandWord (.update x) = some v := by
  constructor
  · intro h
    have field (start len : Nat) : v.extractLsb' start len &&& (0xFFFF00FF : Word).extractLsb' start len
        = (0x00000002 : Word).extractLsb' start len := by rw [← BitVec.extractLsb'_and, h]
    have hop : (cmdOp v).toNat = 2 := congrArg BitVec.toNat (BitVec.and_allOnes.symm.trans (field 0 8))
    have hrsv : (cmdRsv v).toNat = 0 := congrArg BitVec.toNat (BitVec.and_allOnes.symm.trans (field 16 16))
    rw [cmdOp_toNat] at hop
    rw [cmdRsv_toNat] at hrsv
    refine ⟨cmdData v, (decodeCommand_ok_iff v _).mp ((decodeCommand_update_iff v _).mpr ?_)⟩
    rw [cmdData_toNat]
    omega
  · rintro ⟨x, hx⟩
    obtain rfl := Option.some.inj hx
    revert x
    decide

/-- R53: a row matches a write exactly when the write, made 32 bits wide, decodes to the row's instruction. -/
theorem OpcodeRow.matches_write_iff {r : OpcodeRow} (hr : r ∈ opcodeTable) (addr size : Nat) (v : Word) :
    r.matchesAccess (.write addr size v) = true ↔
      ∃ i, decode (.write addr 4 v) = .ok i ∧ i.mnemonic = r.mnemonic := by
  have zero : (Access.write addr size v).off = 0x00 ↔ addr % 256 = 0 := by
    rw [BitVec.toNat_eq, Access.off_toNat]
    rfl
  have whole (w : Word) : v &&& 0xFFFFFFFF = w ↔ w = v := by
    rw [show v &&& 0xFFFFFFFF = v from BitVec.and_allOnes, eq_comm]
  simp only [decode_write_ok_iff, true_and, opcodeTable, List.mem_cons, List.not_mem_nil, or_false] at hr ⊢
  rcases hr with rfl | rfl | rfl | rfl | rfl | rfl | rfl | rfl | rfl | rfl | rfl
  all_goals simp only [OpcodeRow.matchesAccess, Bool.and_eq_true, beq_iff_eq, whole, update_matches_iff, zero]
  all_goals simp [exists_instr, commandWord, Instr.mnemonic]

/-- R53: a row matches a read exactly when the read, made 32 bits wide, decodes to the row's instruction. -/
theorem OpcodeRow.matches_read_iff {r : OpcodeRow} (hr : r ∈ opcodeTable) (addr size : Nat) :
    r.matchesAccess (.read addr size) = true ↔
      ∃ i, decode (.read addr 4) = .ok i ∧ i.mnemonic = r.mnemonic := by
  simp only [decode_read_ok_iff, true_and, opcodeTable, List.mem_cons, List.not_mem_nil, or_false] at hr ⊢
  rcases hr with rfl | rfl | rfl | rfl | rfl | rfl | rfl | rfl | rfl | rfl | rfl
  all_goals simp only [OpcodeRow.matchesAccess, beq_iff_eq, offset_matches_iff]
  all_goals simp [exists_instr, commandWord, Instr.mnemonic, Instr.offset, Access.addr]

/-- The access, made 32 bits wide (R53's rows do not look at the size). -/
def Access.wide (a : Access) : Access :=
  match a with
  | .write addr _ v => .write addr 4 v
  | .read addr _ => .read addr 4

theorem Access.wide_of_size {a : Access} (h : a.size = 4) : a.wide = a := by
  cases a <;> obtain rfl := h <;> rfl

/-- R53: a row matches an access exactly when the access, made 32 bits wide, decodes to the row's instruction. -/
theorem OpcodeRow.matches_iff {r : OpcodeRow} (hr : r ∈ opcodeTable) (a : Access) :
    r.matchesAccess a = true ↔ ∃ i, decode a.wide = .ok i ∧ i.mnemonic = r.mnemonic := by
  cases a with
  | write addr size v => exact matches_write_iff hr addr size v
  | read addr size => exact matches_read_iff hr addr size

/-- Settles O25: a row matches what decodes to its mnemonic, every mnemonic has one row, and an access decodes to one
instruction. -/
theorem decoderAgreesWithOpcodeTable : Obligations.DecoderAgreesWithOpcodeTable := by
  have row (i : Instr) : ∃ r ∈ opcodeTable, r.mnemonic = i.mnemonic := by
    cases i <;> simp [opcodeTable, Instr.mnemonic]
  have unique : ∀ r₁ ∈ opcodeTable, ∀ r₂ ∈ opcodeTable, r₁.mnemonic = r₂.mnemonic → r₁ = r₂ := by decide
  constructor
  · intro a name hsize _
    have hmatch {r : OpcodeRow} (hr : r ∈ opcodeTable) := Access.wide_of_size hsize ▸ OpcodeRow.matches_iff hr a
    constructor
    · rintro ⟨i, hd, rfl⟩
      obtain ⟨r, hr, hname⟩ := row i
      exact ⟨r, hr, hname, (hmatch hr).mpr ⟨i, hd, hname.symm⟩⟩
    · rintro ⟨r, hr, rfl, hm⟩
      exact (hmatch hr).mp hm
  · intro a r₁ r₂ hr₁ hr₂ hm₁ hm₂
    obtain ⟨i, hi, hname₁⟩ := (OpcodeRow.matches_iff hr₁ a).mp hm₁
    obtain ⟨j, hj, hname₂⟩ := (OpcodeRow.matches_iff hr₂ a).mp hm₂
    obtain rfl : i = j := Except.ok.inj (hi.symm.trans hj)
    exact unique r₁ hr₁ r₂ hr₂ (hname₁.symm.trans hname₂)

end Sys2Proof
end

section
/-! PROOFS. The accesses of assembled lines (R55 to R58). -/

namespace Sys2Proof.Machine

/-- R50, R55: the word of UPDATE b. -/
theorem encode_update_ofNat (k : Nat) {b : Nat} (h : b ≤ 255) :
    encode k (.update (BitVec.ofNat 8 b)) = .write (256 * k) 4 (BitVec.ofNat 32 (0x00000002 + 256 * b)) := by
  rw [encode_command rfl]
  refine congrArg (Access.write (256 * k) 4) (BitVec.eq_of_toNat_eq ?_)
  rw [updateWord_toNat, BitVec.toNat_ofNat, BitVec.toNat_ofNat]
  omega

theorem byteOperand_iff (b : Nat) : byteOperand b = true ↔ b ≤ 255 := decide_eq_true_iff

/-! The lines that are rejected where an operand is out of range. -/

theorem assembleLine_updates (k : Nat) (s : List Nat) :
    assembleLine k (.updates s)
      = if s.all byteOperand then some ((updatesInstrs (operandBytes s)).map (encode k)) else none := rfl

theorem assembleLine_update (k b : Nat) :
    assembleLine k (.update b) = if byteOperand b then some [encode k (.update (BitVec.ofNat 8 b))] else none := rfl

theorem assembleLine_hash (k : Nat) (s : List Nat) :
    assembleLine k (.hash s)
      = if s.all byteOperand then some ((hashInstrs (operandBytes s)).map (encode k)) else none := rfl

/-- R56: `UPDATES` expands byte by byte. -/
theorem assembleLine_updates_cons (k b : Nat) (s : List Nat) :
    assembleLine k (.updates (b :: s))
      = (assembleLine k (.update b)).bind fun x => (assembleLine k (.updates s)).map (x ++ ·) := by
  rw [assembleLine_updates, assembleLine_updates, assembleLine_update, List.all_cons]
  cases byteOperand b <;> cases s.all byteOperand <;> rfl

/-- R57: `HASH` expands to its four lines. -/
theorem assembleLine_hash_expands (k : Nat) (s : List Nat) :
    assembleLine k (.hash s) = assemble k [.init, .updates s, .final, .rdDigest] := by
  simp only [assemble, assembleLine_hash, assembleLine_updates]
  cases s.all byteOperand
  · rfl
  · simp [assembleLine, AsmLine.wf, hashInstrs]

theorem assembleLine_wrRaw (k : Nat) {off v : Nat} (hoff : off < 256) (hv : v < 2 ^ 32) :
    assembleLine k (.wrRaw off v) = some [.write (256 * k + off) 4 (BitVec.ofNat 32 v)] :=
  if_pos (Bool.and_eq_true_iff.mpr ⟨decide_eq_true hoff, decide_eq_true hv⟩)

theorem assembleLine_rdRaw (k : Nat) {off : Nat} (hoff : off < 256) :
    assembleLine k (.rdRaw off) = some [.read (256 * k + off) 4] :=
  if_pos (decide_eq_true hoff)

/-- Settles O48, line by line. -/
theorem assemblerEmitsTheEncodings : Obligations.AssemblerEmitsTheEncodings := by
  intro k
  refine ⟨rfl, fun b hb => ?_, fun b hb => ?_, rfl, rfl, rfl, rfl, rfl, rfl, rfl, rfl, rfl,
    fun off v hoff hv => assembleLine_wrRaw k hoff hv, fun off hoff => assembleLine_rdRaw k hoff, rfl,
    assembleLine_updates_cons k, rfl, assembleLine_hash_expands k⟩
  · rw [assembleLine_update, if_pos ((byteOperand_iff b).mpr hb), encode_update_ofNat k hb]
  · rw [assembleLine_update, if_neg fun h => absurd ((byteOperand_iff b).mp h) (by omega)]

end Sys2Proof.Machine
end

section
/-! PROOFS. SHA-1 of a message, block by block (R61, R66 to R75): the blocks of the padded message, and what a state
that has absorbed a message holds of it. -/

namespace Sys2Proof.Machine

/-! The compression step over consecutive blocks. -/

/-- R31, R75: the compression step reads the 64 addresses of its block only. -/
theorem compress_congr (h : Chaining) {b c : Nat → Byte} (heq : ∀ i < 64, b i = c i) : compress h b = compress h c := by
  have hunpack : unpack b = unpack c := by
    refine congrArg Vector.ofFn (funext fun i => ?_)
    rw [heq _ (by omega), heq _ (by omega), heq _ (by omega), heq _ (by omega)]
  rw [compress_def, compress_def, hunpack]

/-- The chaining state after the first `n` blocks of a byte sequence. -/
def hashBlocks (bytes : List Byte) (n : Nat) : Chaining :=
  (List.range n).foldl (fun h k => compress h fun i => bytes.getD (64 * k + i) 0x00) iv

theorem sha1_eq (m : List Byte) : sha1 m = hashBlocks (paddedMessage m) ((paddedMessage m).length / 64) := rfl

theorem hashBlocks_zero (bytes : List Byte) : hashBlocks bytes 0 = iv := rfl

theorem hashBlocks_succ (bytes : List Byte) (n : Nat) :
    hashBlocks bytes (n + 1) = compress (hashBlocks bytes n) fun i => bytes.getD (64 * n + i) 0x00 := by
  rw [hashBlocks, List.range_succ, List.foldl_append]
  rfl

/-- Whole blocks are hashed alike whatever follows them. -/
theorem hashBlocks_append (xs ys : List Byte) {n : Nat} (h : 64 * n ≤ xs.length) :
    hashBlocks (xs ++ ys) n = hashBlocks xs n := by
  induction n with
  | zero => rw [hashBlocks_zero, hashBlocks_zero]
  | succ n ih =>
    rw [hashBlocks_succ, hashBlocks_succ, ih (by omega)]
    exact compress_congr _ fun i hi => List.getD_append _ _ _ _ (by omega)

/-! The padded message (R67 to R69). -/

/-- The index of the last block of the padded message. -/
def lastBlock (m : List Byte) : Nat := m.length / 64 + if m.length % 64 ≤ 55 then 0 else 1

/-- R67: the bytes of a message, the pad byte after it, and zeros. -/
def markedByte (m : List Byte) (j : Nat) : Byte :=
  if j < m.length then m.getD j 0x00 else if j = m.length then 0x80 else 0x00

/-- The padded message before its length. -/
def markedMessage (m : List Byte) : List Byte := m ++ [0x80] ++ List.replicate ((119 - m.length % 64) % 64) 0x00

theorem markedMessage_length (m : List Byte) : (markedMessage m).length = 64 * lastBlock m + 56 := by
  simp only [markedMessage, lastBlock, List.length_append, List.length_singleton, List.length_replicate]
  split <;> omega

theorem markedMessage_getD (m : List Byte) (j : Nat) : (markedMessage m).getD j 0x00 = markedByte m j := by
  have zeros (n i : Nat) : (List.replicate n (0x00 : Byte)).getD i 0x00 = 0x00 := by
    rw [List.getD_eq_getElem?_getD, List.getElem?_replicate]
    split <;> rfl
  rw [markedMessage, List.append_assoc, markedByte]
  split_ifs with hlt heq
  · exact List.getD_append _ _ _ _ hlt
  · rw [List.getD_append_right _ _ _ _ (by omega), heq, Nat.sub_self]
    rfl
  · rw [List.getD_append_right _ _ _ _ (by omega), List.getD_append_right _ _ _ _ (by simp; omega)]
    exact zeros _ _

theorem paddedMessage_eq (m : List Byte) :
    paddedMessage m = markedMessage m ++ (List.range 8).map fun i => lengthByte m.length (56 + i) := rfl

theorem paddedMessage_length (m : List Byte) : (paddedMessage m).length = 64 * (lastBlock m + 1) := by
  rw [paddedMessage_eq, List.length_append, markedMessage_length, List.length_map, List.length_range]
  omega

/-- R67, R68: up to its length, the padded message is the marked one. -/
theorem paddedMessage_getD_marked (m : List Byte) {j : Nat} (h : j < 64 * lastBlock m + 56) :
    (paddedMessage m).getD j 0x00 = markedByte m j := by
  rw [paddedMessage_eq, List.getD_append _ _ _ _ (by rwa [markedMessage_length]), markedMessage_getD]

/-- R69: the padded message ends in the length. -/
theorem paddedMessage_getD_length (m : List Byte) {i : Nat} (h : 56 ≤ i) (hi : i < 64) :
    (paddedMessage m).getD (64 * lastBlock m + i) 0x00 = lengthByte m.length i := by
  have hlen := markedMessage_length m
  rw [paddedMessage_eq, List.getD_append_right _ _ _ _ (by omega), hlen,
    List.getD_eq_getElem _ _ (by simp; omega), List.getElem_map, List.getElem_range]
  congr 1
  omega

/-- The blocks before the padding are the message's. -/
theorem hashBlocks_paddedMessage (m : List Byte) :
    hashBlocks (paddedMessage m) (m.length / 64) = hashBlocks m (m.length / 64) := by
  rw [paddedMessage_eq, markedMessage, List.append_assoc, List.append_assoc]
  exact hashBlocks_append _ _ (by omega)

/-- R36, R69: the bytes FINAL writes are those of the bit length. -/
theorem lengthWords_getD (hi lo : Word) {n : Nat} (hn : hi.toNat * 2 ^ 32 + lo.toNat = n % 2 ^ 64) {i : Nat}
    (h56 : 56 ≤ i) (h64 : i < 64) :
    (beBytes (lengthHi hi lo) ++ beBytes (lengthLo lo)).getD (i - 56) 0 = lengthByte n i := by
  have hbits := length_toNat hi lo
  have four (w : Word) : (beBytes w).length = 4 := rfl
  rw [show 8 * (hi.toNat * 2 ^ 32 + lo.toNat) % 2 ^ 64 = 8 * n % 2 ^ 64 by omega] at hbits
  refine BitVec.eq_of_toNat_eq ?_
  rw [lengthByte, BitVec.toNat_ofNat, ← hbits]
  have hlo := (lengthLo lo).isLt
  by_cases hword : i < 60
  · rw [List.getD_append _ _ _ _ (by rw [four]; omega), beBytes_getD_toNat _ (by omega),
      show 63 - i = 4 + (59 - i) by omega, pow_add, ← Nat.div_div_eq_div_mul,
      show (2 ^ 32 * (lengthHi hi lo).toNat + (lengthLo lo).toNat) / 256 ^ 4 = (lengthHi hi lo).toNat by omega,
      show 3 - (i - 56) = 59 - i by omega]
  · rw [List.getD_append_right _ _ _ _ (by rw [four]; omega), four, beBytes_getD_toNat _ (by omega)]
    obtain rfl | rfl | rfl | rfl : i = 60 ∨ i = 61 ∨ i = 62 ∨ i = 63 := by omega
    all_goals omega

/-! What a state that has absorbed a message holds of it. -/

/-- A message is open and `m` has been absorbed: the counter, H and the pending bytes are those of `m` (R63). -/
structure State.Absorbed (s : State) (m : List Byte) : Prop where
  phase : s.phase = .absorbing
  wf : s.blk.wf = true
  count : s.count64 = m.length % 2 ^ 64
  chaining : s.h = hashBlocks m (m.length / 64)
  pending : ∀ i < m.length % 64, s.blk.read i = m.getD (64 * (m.length / 64) + i) 0x00

namespace State.Absorbed

variable {s : State} {m : List Byte}

theorem fill (h : s.Absorbed m) : s.fill = m.length % 64 := by
  have hcount := h.count
  rw [State.count64] at hcount
  rw [State.fill, Config.blockBytes]
  omega

/-- R62: INIT opens the empty message. -/
theorem startMessage (s : State) : s.startMessage.Absorbed [] where
  phase := rfl
  wf := Memory.wf_cleared
  count := by simp [State.count64]
  chaining := (hashBlocks_zero []).symm
  pending := fun i hi => absurd hi (Nat.not_lt_zero i)

theorem accept (h : s.Absorbed m) : s.accept.Absorbed m := ⟨h.phase, h.wf, h.count, h.chaining, h.pending⟩

theorem respond (h : s.Absorbed m) (rd : Option Word) : (s.respond rd).Absorbed m :=
  ⟨h.phase, h.wf, h.count, h.chaining, h.pending⟩

/-- R63: UPDATE absorbs a byte. -/
theorem absorbByte (h : s.Absorbed m) (x : Byte) : (s.absorbByte x).Absorbed (m ++ [x]) := by
  have hfill := h.fill
  have hlen : (m ++ [x]).length = m.length + 1 := List.length_append
  have written : ∀ i ≤ m.length % 64,
      (s.blk.write (m.length % 64) x).read i = (m ++ [x]).getD (64 * (m.length / 64) + i) 0x00 := by
    intro i hi
    rw [Memory.read_write (Memory.rising_of_wf h.wf)]
    split_ifs with heq
    · rw [heq, Nat.div_add_mod, List.getD_append_right _ _ _ _ le_rfl, Nat.sub_self]
      rfl
    · rw [List.getD_append _ _ _ _ (by omega), h.pending i (by omega)]
  refine ⟨(s.absorbByte_phase x).trans h.phase, State.absorbByte_wf h.wf x, ?_, ?_, ?_⟩
  · rw [State.absorbByte_count64, h.count, hlen]
    omega
  · rw [State.absorbByte_h, hfill, hlen, h.chaining, Config.blockBytes]
    split_ifs with hfull
    · rw [show (m.length + 1) / 64 = m.length / 64 + 1 by omega, hashBlocks_succ, hashBlocks_append _ _ (by omega)]
      exact compress_congr _ fun i hi => written i (by omega)
    · rw [show (m.length + 1) / 64 = m.length / 64 by omega, hashBlocks_append _ _ (by omega)]
  · intro i hi
    rw [hlen] at hi ⊢
    rw [State.absorbByte_blk, hfill, show (m.length + 1) / 64 = m.length / 64 by omega]
    exact written i (by omega)

/-- R67: the padded block is the message's rest, the pad byte and zeros. -/
theorem padBlock_read (h : s.Absorbed m) {i : Nat} (hi : i < 64) :
    s.padBlock.blk.read i = markedByte m (64 * (m.length / 64) + i) := by
  rw [State.padBlock_read h.wf i hi, h.fill, markedByte]
  split_ifs <;> first | exact h.pending i ‹_› | rfl | omega

theorem padBlock_fill (h : s.Absorbed m) : s.padBlock.fill = m.length % 64 := by
  rw [← h.fill, State.fill, State.padBlock_cntLo, State.fill]

/-- R67, R68: the last block, before its length. -/
theorem makeRoom_read (h : s.Absorbed m) {i : Nat} (hi : i < 56) :
    s.padBlock.makeRoom.blk.read i = markedByte m (64 * lastBlock m + i) := by
  rw [State.makeRoom_blk, h.padBlock_fill, lastBlock]
  by_cases hroom : m.length % 64 ≤ 55
  · rw [if_neg (by omega), if_pos hroom]
    exact h.padBlock_read (by omega)
  · rw [if_pos (by omega), if_neg hroom, markedByte, if_neg (by omega), if_neg (by omega)]
    rfl

/-- R68, R75: H before the last block. -/
theorem makeRoom_h (h : s.Absorbed m) : s.padBlock.makeRoom.h = hashBlocks (paddedMessage m) (lastBlock m) := by
  rw [State.makeRoom_h, h.padBlock_fill, State.padBlock_h, h.chaining, ← hashBlocks_paddedMessage]
  by_cases hroom : m.length % 64 ≤ 55
  · rw [if_neg (by omega), lastBlock, if_pos hroom, Nat.add_zero]
  · have hnext : lastBlock m = m.length / 64 + 1 := by rw [lastBlock, if_neg hroom]
    rw [if_pos (by omega), hnext, hashBlocks_succ]
    refine compress_congr _ fun i hi => ?_
    rw [h.padBlock_read hi, paddedMessage_getD_marked m (by omega)]

/-- R67 to R69: the block FINAL compresses last is the padded message's last. -/
theorem writeLength_read (h : s.Absorbed m) {i : Nat} (hi : i < 64) :
    s.padBlock.makeRoom.writeLength.blk.read i = (paddedMessage m).getD (64 * lastBlock m + i) 0x00 := by
  rw [State.writeLength_read (State.makeRoom_wf (State.padBlock_wf h.wf)), State.makeRoom_cntHi, State.makeRoom_cntLo,
    State.padBlock_cntHi, State.padBlock_cntLo]
  by_cases h56 : 56 ≤ i
  · rw [if_pos ⟨h56, hi⟩, paddedMessage_getD_length m h56 hi]
    exact lengthWords_getD _ _ h.count h56 hi
  · rw [if_neg fun hin => h56 hin.1, paddedMessage_getD_marked m (by omega)]
    exact h.makeRoom_read (by omega)

/-- R66 to R70: FINAL leaves the digest of the message in H. -/
theorem finishMessage_h (h : s.Absorbed m) : s.finishMessage.h = sha1 m := by
  rw [State.finishMessage_h, h.makeRoom_h, sha1_eq, paddedMessage_length, Nat.mul_div_cancel_left _ (by decide),
    hashBlocks_succ]
  exact compress_congr _ fun i hi => h.writeLength_read hi

end State.Absorbed

end Sys2Proof.Machine
end

section
/-! PROOFS. The run of HASH m (R57, R122): instruction by instruction, what each leaves and returns. -/

namespace Sys2Proof.Machine

/-! The host issues one instruction. -/

/-- The state after the host's access that issues an instruction to the block. -/
def State.perform (s : State) (i : Instr) : State := afterAccess s (encode s.baseIndex i)

/-- R48, R52: the access that issues an instruction has the instruction's meaning. -/
theorem State.perform_eq {s t : State} {i : Instr} (h : exec i s.accept = .next t) : s.perform i = t :=
  afterAccess_selected (encode_selects s.baseIndex i) ((performAccess_ok (decode_encode s.baseIndex i) s).trans h)

theorem State.perform_init (s : State) : s.perform .init = s.accept.startMessage.respond none :=
  State.perform_eq rfl

theorem State.perform_update {s : State} (h : s.phase = .absorbing) (x : Byte) :
    s.perform (.update x) = (s.accept.absorbByte x).respond none :=
  State.perform_eq (by rw [exec, execUpdate, State.whileAbsorbing, State.accept_phase, h])

theorem State.perform_final {s : State} (h : s.phase = .absorbing) :
    s.perform .final = s.accept.finishMessage.respond none :=
  State.perform_eq (by rw [exec, execFinal, State.whileAbsorbing, State.accept_phase, h])

/-- R27: each instruction issued advances `pc` by 1. -/
theorem State.perform_frame (s : State) (i : Instr) :
    (s.perform i).pc = s.pc + 1 ∧ (s.perform i).baseIndex = s.baseIndex := by
  obtain ⟨t, ht⟩ := exec_isNext i s.accept
  obtain ⟨hpc, hbase, -⟩ := exec_frame ht
  rw [State.perform_eq ht]
  exact ⟨hpc, hbase⟩

/-! The host issues a list of instructions. -/

theorem State.foldl_perform_frame (is : List Instr) (s : State) :
    (is.foldl State.perform s).pc = s.pc + is.length ∧ (is.foldl State.perform s).baseIndex = s.baseIndex := by
  induction is generalizing s with
  | nil => exact ⟨rfl, rfl⟩
  | cons i is ih =>
    obtain ⟨hpc, hbase⟩ := ih (s.perform i)
    obtain ⟨hpc₁, hbase₁⟩ := s.perform_frame i
    rw [List.foldl_cons, List.length_cons, hpc, hbase, hpc₁, hbase₁]
    exact ⟨by omega, rfl⟩

/-- Performing the encoded accesses one after the other is issuing the instructions. -/
theorem foldl_afterAccess_encode (is : List Instr) (s : State) :
    (is.map (encode s.baseIndex)).foldl afterAccess s = is.foldl State.perform s := by
  induction is generalizing s with
  | nil => rfl
  | cons i is ih =>
    have hbase := (s.perform_frame i).2
    rw [List.map_cons, List.foldl_cons, List.foldl_cons, ← ih (s.perform i), hbase]
    rfl

/-- R122: the run of encoded instructions. -/
theorem runAccesses_encode (is : List Instr) (s : State) :
    runAccesses (is.map (encode s.baseIndex)) s = .next (is.foldl State.perform { s with host := [] }) :=
  (runIsALeftFold _ s).trans (congrArg _ (foldl_afterAccess_encode is { s with host := [] }))

theorem returnedBy_nil (s : State) : returnedBy [] s = [] := rfl

/-- R122: the first access returns its value, then the rest of the run. -/
theorem returnedBy_cons (a : Access) (as : List Access) (s : State) :
    returnedBy (a :: as) s = (afterAccess s a).rdata :: returnedBy as (afterAccess s a) := by
  rw [returnedBy, List.length_cons, returned, step_issuing_cons]
  rfl

/-- What the rest of a run returns does not depend on how its first part came about. -/
theorem returnedBy_append_drop (as bs : List Access) (s : State) :
    (returnedBy (as ++ bs) s).drop as.length = returnedBy bs (as.foldl afterAccess s) := by
  induction as generalizing s with
  | nil => rfl
  | cons a as ih => rw [List.cons_append, returnedBy_cons, List.length_cons, List.drop_succ_cons, ih, List.foldl_cons]

theorem returnedBy_encode_cons (i : Instr) (is : List Instr) (s : State) :
    returnedBy ((i :: is).map (encode s.baseIndex)) s
      = (s.perform i).rdata :: returnedBy (is.map (encode (s.perform i).baseIndex)) (s.perform i) := by
  rw [List.map_cons, returnedBy_cons, (s.perform_frame i).2]
  rfl

theorem returnedBy_encode_append_drop (is js : List Instr) (s : State) :
    (returnedBy ((is ++ js).map (encode s.baseIndex)) s).drop is.length
      = returnedBy (js.map (encode (is.foldl State.perform s).baseIndex)) (is.foldl State.perform s) := by
  rw [List.map_append, ← List.length_map (encode s.baseIndex), returnedBy_append_drop, foldl_afterAccess_encode,
    (State.foldl_perform_frame is s).2]

/-! The parts of HASH m (R57). -/

/-- R57: HASH m before its reads. -/
def messageInstrs (m : List Byte) : List Instr := .init :: updatesInstrs m ++ [.final]

theorem hashInstrs_eq (m : List Byte) : hashInstrs m = messageInstrs m ++ rdDigestInstrs := by
  simp [hashInstrs, messageInstrs]

theorem messageInstrs_length (m : List Byte) : (messageInstrs m).length = m.length + 2 := by
  simp [messageInstrs, updatesInstrs]

/-- R56: UPDATES m absorbs its bytes, and raises nothing. -/
theorem State.Absorbed.updates {s : State} {m : List Byte} (h : s.Absorbed m) (xs : List Byte) :
    let t := (updatesInstrs xs).foldl State.perform s
    t.Absorbed (m ++ xs) ∧ t.err = s.err ∧ t.errCause = s.errCause := by
  induction xs generalizing s m with
  | nil => exact ⟨by rwa [List.append_nil], rfl, rfl⟩
  | cons x xs ih =>
    obtain ⟨habs, herr, hcause⟩ := ih ((h.accept.absorbByte x).respond none)
    rw [List.append_assoc] at habs
    rw [updatesInstrs, List.map_cons, List.foldl_cons, State.perform_update h.phase]
    refine ⟨habs, herr.trans ?_, hcause.trans ?_⟩ <;> simp

/-- R57, R66, R71: INIT, UPDATES m, FINAL from any state. -/
theorem State.perform_message (s : State) (m : List Byte) :
    let t := (messageInstrs m).foldl State.perform s
    t.phase = .done ∧ t.h = sha1 m ∧ t.err = s.err ∧ t.errCause = s.errCause ∧ t.count64 = m.length % 2 ^ 64 := by
  obtain ⟨habs, herr, hcause⟩ := ((State.Absorbed.startMessage s.accept).respond none).updates m
  rw [List.nil_append] at habs
  rw [messageInstrs, List.foldl_concat, List.foldl_cons, State.perform_init, State.perform_final habs.phase]
  refine ⟨by simp, habs.accept.finishMessage_h, ?_, ?_, ?_⟩
  · simp [herr]
  · simp [hcause]
  · simpa [State.count64] using habs.count

/-- R93 to R97: in DONE a digest read returns its word. -/
theorem State.perform_digestRead {s : State} {i : Instr} {v : Word} (h : s.phase = .done)
    (hi : exec i s.accept = .next (s.accept.readWhen (s.accept.phase == .done) v)) :
    s.perform i = s.accept.respond (some v) :=
  State.perform_eq (hi.trans (congrArg _ (if_pos (beq_iff_eq.mpr h))))

theorem State.perform_rdDigest0 {s : State} (h : s.phase = .done) :
    s.perform .rdDigest0 = s.accept.respond (some s.h.h0) := State.perform_digestRead h rfl

theorem State.perform_rdDigest1 {s : State} (h : s.phase = .done) :
    s.perform .rdDigest1 = s.accept.respond (some s.h.h1) := State.perform_digestRead h rfl

theorem State.perform_rdDigest2 {s : State} (h : s.phase = .done) :
    s.perform .rdDigest2 = s.accept.respond (some s.h.h2) := State.perform_digestRead h rfl

theorem State.perform_rdDigest3 {s : State} (h : s.phase = .done) :
    s.perform .rdDigest3 = s.accept.respond (some s.h.h3) := State.perform_digestRead h rfl

theorem State.perform_rdDigest4 {s : State} (h : s.phase = .done) :
    s.perform .rdDigest4 = s.accept.respond (some s.h.h4) := State.perform_digestRead h rfl

/-- R58, R93 to R97: in DONE the five reads return H and change neither the message state nor the error record. -/
theorem State.perform_rdDigestInstrs {s : State} (h : s.phase = .done) :
    let t := rdDigestInstrs.foldl State.perform s
    s.sameMessage t ∧ t.err = s.err ∧ t.errCause = s.errCause
      ∧ returnedBy (rdDigestInstrs.map (encode s.baseIndex)) s
        = [some s.h.h0, some s.h.h1, some s.h.h2, some s.h.h3, some s.h.h4] := by
  simp only [rdDigestInstrs, List.foldl_cons, List.foldl_nil, returnedBy_encode_cons, State.perform_rdDigest0,
    State.perform_rdDigest1, State.perform_rdDigest2, State.perform_rdDigest3, State.perform_rdDigest4,
    State.respond_phase, State.accept_phase, h]
  simp [State.sameMessage, returnedBy_nil]

/-- Settles O34: the message leaves its digest in H, and the five reads return it. -/
theorem hashRunReturnsTheDigest : Obligations.HashRunReturnsTheDigest := by
  intro s m
  obtain ⟨hphase, hh, herr, hcause, hcount⟩ := State.perform_message { s with host := [] } m
  obtain ⟨⟨hh', -, hlo, hhi, hphase'⟩, herr', hcause', hreturned⟩ := State.perform_rdDigestInstrs hphase
  have hpc := (State.foldl_perform_frame (hashInstrs m) { s with host := [] }).1
  have hdrop := returnedBy_encode_append_drop (messageInstrs m) rdDigestInstrs { s with host := [] }
  rw [messageInstrs_length, hreturned, hh, ← hashInstrs_eq] at hdrop
  refine ⟨_, runAccesses_encode (hashInstrs m) s, ?_, ?_, ?_, ?_, ?_, hpc.trans ?_, hdrop, ?_⟩
  · rw [hashInstrs_eq, List.foldl_append, ← hphase', hphase]
  · rw [hashInstrs_eq, List.foldl_append, ← hh', hh]
  · rw [hashInstrs_eq, List.foldl_append, herr', herr]
  · rw [hashInstrs_eq, List.foldl_append, hcause', hcause]
  · rw [hashInstrs_eq, List.foldl_append, ← hcount, State.count64, ← hlo, ← hhi]
    rfl
  · rw [hashInstrs_eq, List.length_append, messageInstrs_length]
    rfl
  · rw [paddedMessage_length, lastBlock]
    split <;> rfl

end Sys2Proof.Machine
end

section
/-! PROOFS. The assembler's text (R55, R56): comments, numbers, quoted characters, strings and lists. -/

namespace Sys2Proof.Machine

/-! Comments. -/

/-- Outside quotes the text before a semicolon is the line. -/
theorem dropComment_append {line : List Char} (h : ∀ c ∈ line, c ≠ ';' ∧ c ≠ singleQuote ∧ c ≠ doubleQuote)
    (rest : List Char) : dropComment .plain (line ++ rest) = line ++ dropComment .plain rest := by
  induction line with
  | nil => rfl
  | cons c line ih =>
    obtain ⟨hsemi, hsingle, hdouble⟩ := h c List.mem_cons_self
    rw [List.cons_append, dropComment, if_neg (by simp [hsemi]), List.cons_append,
      show TextMode.plain.after c = .plain by simp [TextMode.after, hsingle, hdouble],
      ih fun d hd => h d (List.mem_cons_of_mem c hd)]

/-- R55: a comment says nothing. -/
theorem parseLine_comment {line : List Char} (h : ∀ c ∈ line, c ≠ ';' ∧ c ≠ singleQuote ∧ c ≠ doubleQuote)
    (comment : List Char) : parseLine (line ++ ';' :: comment) = parseLine line := by
  have dropped : dropComment .plain (line ++ ';' :: comment) = dropComment .plain line := by
    rw [dropComment_append h, ← List.append_nil line, dropComment_append h, List.append_nil]
    rfl
  rw [parseLine, parseLine, dropped]

/-! Numbers. -/

theorem digitValue_digitChar : ∀ d < 16, digitValue (Nat.digitChar d) = some d := by decide

theorem digitValue_toUpper_digitChar : ∀ d < 16, digitValue (Nat.digitChar d).toUpper = some d := by decide

/-- Digits of a radix, however written, read as their number. -/
theorem digitsValue_map {radix : Nat} {char : Nat → Char} {ds : List Nat}
    (hchar : ∀ d ∈ ds, digitValue (char d) = some d) (hradix : ∀ d ∈ ds, d < radix) (acc : Nat) :
    digitsValue radix acc (ds.map char) = some (ds.foldl (fun n d => radix * n + d) acc) := by
  induction ds generalizing acc with
  | nil => rfl
  | cons d ds ih =>
    rw [List.map_cons, digitsValue, hchar d List.mem_cons_self]
    show (if d < radix then _ else _) = _
    rw [if_pos (hradix d List.mem_cons_self), Nat.mul_comm,
      ih (fun e he => hchar e (List.mem_cons_of_mem d he)) (fun e he => hradix e (List.mem_cons_of_mem d he))]
    rfl

theorem parseNumber_hex {cs : List Char} (h : cs ≠ []) : parseNumber ('0' :: 'x' :: cs) = digitsValue 16 0 cs := by
  cases cs with
  | nil => exact absurd rfl h
  | cons c cs => rfl

theorem parseNumber_decimal {cs : List Char} (h : cs ≠ []) (hx : 'x' ∉ cs) : parseNumber cs = digitsValue 10 0 cs := by
  unfold parseNumber
  split
  · exact absurd rfl h
  · exact absurd (by simp) hx
  · exact absurd (by simp) hx
  · rfl

/-- R55: hexadecimal digits after 0x, in either case, read as their number. -/
theorem parseNumber_hexDigits {char : Nat → Char} (hchar : ∀ d < 16, digitValue (char d) = some d) {ds : List Nat}
    (hne : ds ≠ []) (hds : ∀ d ∈ ds, d < 16) :
    parseNumber ('0' :: 'x' :: ds.map char) = some (ds.foldl (fun n d => 16 * n + d) 0) := by
  rw [parseNumber_hex (by simpa using hne), digitsValue_map (fun d hd => hchar d (hds d hd)) hds]

/-- No decimal digit is the `x` of 0x, a quote, a comma or a blank. -/
theorem decimalDigits_ne {ds : List Nat} (hds : ∀ d ∈ ds, d < 10) :
    ∀ c ∈ ds.map Nat.digitChar,
      c ≠ 'x' ∧ c ≠ singleQuote ∧ c ≠ doubleQuote ∧ c ≠ ',' ∧ isBlank c = false := by
  have digit : ∀ d < 10, Nat.digitChar d ≠ 'x' ∧ Nat.digitChar d ≠ singleQuote ∧ Nat.digitChar d ≠ doubleQuote
      ∧ Nat.digitChar d ≠ ',' ∧ isBlank (Nat.digitChar d) = false := by decide
  intro c hc
  obtain ⟨d, hd, rfl⟩ := List.mem_map.mp hc
  exact digit d (hds d hd)

/-- R55: decimal digits read as their number. -/
theorem parseNumber_decimalDigits {ds : List Nat} (hne : ds ≠ []) (hds : ∀ d ∈ ds, d < 10) :
    parseNumber (ds.map Nat.digitChar) = some (ds.foldl (fun n d => 10 * n + d) 0) := by
  rw [parseNumber_decimal (by simpa using hne) fun hx => (decimalDigits_ne hds _ hx).1 rfl,
    digitsValue_map (fun d hd => digitValue_digitChar d ((hds d hd).trans (by decide))) hds]

/-! Bytes and strings. -/

theorem asciiCode_of_lt {c : Char} (h : c.toNat < 128) : asciiCode c = some c.toNat := if_pos h

/-- R55: a character in single quotes is its code. -/
theorem parseByte_quoted {c : Char} (h : c.toNat < 128) : parseByte [singleQuote, c, singleQuote] = some c.toNat :=
  asciiCode_of_lt h

/-- A byte operand that does not begin with a single quote is a number. -/
theorem parseByte_of_head {c : Char} (h : c ≠ singleQuote) (cs : List Char) :
    parseByte (c :: cs) = parseNumber (c :: cs) := by
  unfold parseByte
  split
  · next q _ _ heq =>
    obtain ⟨rfl, -⟩ := List.cons.inj heq
    simp [h]
  · rfl

theorem allSome_map {α : Type} {f : α → Option Nat} {g : α → Nat} {xs : List α} (h : ∀ x ∈ xs, f x = some (g x)) :
    allSome (xs.map f) = some (xs.map g) := by
  induction xs with
  | nil => rfl
  | cons x xs ih =>
    simp only [List.map_cons, allSome, h x List.mem_cons_self, ih fun y hy => h y (List.mem_cons_of_mem x hy)]

/-- R56: a byte sequence in double quotes. -/
theorem parseBytes_string (inside : List Char) :
    parseBytes (doubleQuote :: inside ++ [doubleQuote])
      = if inside.contains doubleQuote then none else allSome (inside.map asciiCode) := by
  rw [parseBytes.eq_def]
  simp

/-- Settles O49, form by form. -/
theorem assemblerReadsOperandText : Obligations.AssemblerReadsOperandText := by
  refine ⟨fun line comment h => parseLine_comment h comment, fun ds => parseNumber_decimalDigits,
    fun ds => parseNumber_hexDigits digitValue_digitChar, fun c => parseByte_quoted, fun cs h => ?_⟩
  rw [parseBytes_string, if_neg (by simpa using fun hmem => (h _ hmem).2 rfl)]
  exact allSome_map fun c hc => asciiCode_of_lt (h c hc).1

/-! Bracketed lists (log 14). -/

/-- A byte sequence in brackets. -/
theorem parseBytes_brackets (inside : List Char) :
    parseBytes ('[' :: inside ++ [']'])
      = if trimBlanks inside == [] then some []
        else allSome ((splitCommas .plain [] inside).map fun p => parseByte (trimBlanks p)) := by
  rw [parseBytes.eq_def]
  simp [show '[' ≠ doubleQuote by decide]

theorem mem_dropWhile_isBlank {c : Char} {cs : List Char} (hc : c ∈ cs) (hb : isBlank c = false) :
    c ∈ cs.dropWhile isBlank := by
  rw [← List.takeWhile_append_dropWhile (p := isBlank) (l := cs), List.mem_append] at hc
  exact hc.resolve_left fun h => by simp [List.mem_takeWhile_imp h] at hb

/-- A text with a character that is no blank is not trimmed away. -/
theorem trimBlanks_ne_nil {c : Char} {cs : List Char} (hc : c ∈ cs) (hb : isBlank c = false) : trimBlanks cs ≠ [] := by
  refine List.ne_nil_of_mem (a := c) ?_
  rw [trimBlanks, List.mem_reverse]
  exact mem_dropWhile_isBlank (List.mem_reverse.mpr (mem_dropWhile_isBlank hc hb)) hb

theorem trimBlanks_space (cs : List Char) : trimBlanks (' ' :: cs) = trimBlanks cs := rfl

/-- No comma of a part of a list, begun outside quotes, separates anything. -/
def IsOnePart (p : List Char) : Prop :=
  ∀ part rest, splitCommas .plain part (p ++ rest) = splitCommas .plain (p.reverse ++ part) rest

theorem IsOnePart.space {p : List Char} (h : IsOnePart p) : IsOnePart (' ' :: p) := by
  intro part rest
  rw [List.reverse_cons, List.append_assoc]
  exact h (' ' :: part) rest

/-- Outside quotes only a comma separates. -/
theorem isOnePart_of_ne {p : List Char} (h : ∀ c ∈ p, c ≠ ',' ∧ c ≠ singleQuote ∧ c ≠ doubleQuote) : IsOnePart p := by
  induction p with
  | nil => exact fun _ _ => rfl
  | cons c p ih =>
    intro part rest
    obtain ⟨hcomma, hsingle, hdouble⟩ := h c List.mem_cons_self
    rw [List.cons_append, splitCommas, if_neg (by simp [hcomma]),
      show TextMode.plain.after c = .plain by simp [TextMode.after, hsingle, hdouble],
      ih fun d hd => h d (List.mem_cons_of_mem c hd), List.reverse_cons, List.append_assoc]
    rfl

/-- Parts separated by a comma and a space. -/
theorem splitCommas_intercalate {p : List Char} {ps : List (List Char)} (h : ∀ q ∈ p :: ps, IsOnePart q) :
    splitCommas .plain [] ([',', ' '].intercalate (p :: ps)) = p :: ps.map (' ' :: ·) := by
  have separated {part : List Char} (hpart : IsOnePart part) (rest : List Char) :
      splitCommas .plain [] (part ++ ',' :: rest) = part :: splitCommas .plain [] rest := by
    rw [hpart, List.append_nil, splitCommas, if_pos (by decide), List.reverse_reverse]
  induction ps generalizing p with
  | nil =>
    have hp := h p List.mem_cons_self [] []
    rw [List.append_nil, List.append_nil] at hp
    rw [List.intercalate_singleton, hp, splitCommas, List.reverse_reverse]
    rfl
  | cons q qs ih =>
    have hspace : ∀ r ∈ (' ' :: q) :: qs, IsOnePart r := by
      intro r hr
      rcases List.mem_cons.mp hr with rfl | hr
      · exact (h q (by simp)).space
      · exact h r (by simp [hr])
    have hnext : [',', ' '].intercalate ((' ' :: q) :: qs) = ' ' :: [',', ' '].intercalate (q :: qs) := by
      cases qs <;> simp [List.intercalate_cons_cons]
    rw [List.intercalate_cons_cons, List.append_assoc, List.cons_append, separated (h p List.mem_cons_self),
      List.cons_append, List.nil_append, ← hnext, ih hspace]
    rfl

/-- The text of one element of a list: it is no blank text and has no blank at its ends, a comma in it separates
nothing, and it reads as `v`. -/
structure IsElement (p : List Char) (v : Nat) : Prop where
  visible : ∃ c ∈ p, isBlank c = false
  trimmed : trimBlanks p = p
  whole : IsOnePart p
  value : parseByte p = some v

theorem isElement_quoted {c : Char} (h : c.toNat < 128) : IsElement [singleQuote, c, singleQuote] c.toNat where
  visible := ⟨singleQuote, List.mem_cons_self, rfl⟩
  trimmed := rfl
  whole := fun _ _ => rfl
  value := parseByte_quoted h

theorem trimBlanks_of_visible {p : List Char} (h : ∀ c ∈ p, isBlank c = false) : trimBlanks p = p := by
  have keep {q : List Char} (hq : ∀ c ∈ q, isBlank c = false) : q.dropWhile isBlank = q := by
    cases q with
    | nil => rfl
    | cons c q => exact List.dropWhile_cons_of_neg (by simp [hq c List.mem_cons_self])
  rw [trimBlanks, keep h, keep fun c hc => h c (List.mem_reverse.mp hc), List.reverse_reverse]

theorem isElement_decimal {ds : List Nat} (hne : ds ≠ []) (hds : ∀ d ∈ ds, d < 10) :
    IsElement (ds.map Nat.digitChar) (ds.foldl (fun n d => 10 * n + d) 0) := by
  have digits := decimalDigits_ne hds
  have hnumber := parseNumber_decimalDigits hne hds
  obtain ⟨c, cs, hcs⟩ := List.exists_cons_of_ne_nil (List.map_eq_nil_iff.not.mpr hne : ds.map Nat.digitChar ≠ [])
  rw [hcs] at digits hnumber ⊢
  obtain ⟨-, hquote, -, -, hblank⟩ := digits c List.mem_cons_self
  refine ⟨⟨c, List.mem_cons_self, hblank⟩, trimBlanks_of_visible fun e he => ?_, isOnePart_of_ne fun e he => ?_,
    (parseByte_of_head hquote cs).trans hnumber⟩
  · obtain ⟨-, -, -, -, hb⟩ := digits e he
    exact hb
  · obtain ⟨-, hsingle, hdouble, hcomma, -⟩ := digits e he
    exact ⟨hcomma, hsingle, hdouble⟩

/-- A bracketed list reads as the list of its elements' values. -/
theorem parseBytes_elements {α : Type} {text : α → List Char} {value : α → Nat} {xs : List α}
    (h : ∀ x ∈ xs, IsElement (text x) (value x)) :
    parseBytes ('[' :: [',', ' '].intercalate (xs.map text) ++ [']']) = some (xs.map value) := by
  cases xs with
  | nil => rfl
  | cons x xs =>
    have visible : trimBlanks ([',', ' '].intercalate (text x :: xs.map text)) ≠ [] := by
      obtain ⟨c, hc, hb⟩ := (h x List.mem_cons_self).visible
      refine trimBlanks_ne_nil (c := c) ?_ hb
      cases xs.map text with
      | nil => rwa [List.intercalate_singleton]
      | cons q qs =>
        rw [List.intercalate_cons_cons, List.append_assoc]
        exact List.mem_append_left _ hc
    have whole : ∀ q ∈ text x :: xs.map text, IsOnePart q := by
      rw [← List.map_cons]
      intro q hq
      obtain ⟨y, hy, rfl⟩ := List.mem_map.mp hq
      exact (h y hy).whole
    rw [parseBytes_brackets, List.map_cons, if_neg (by simpa using visible), splitCommas_intercalate whole]
    have trimmed : ((text x :: (xs.map text).map (' ' :: ·)).map fun p => parseByte (trimBlanks p))
        = (x :: xs).map fun y => parseByte (trimBlanks (text y)) := by
      simp [trimBlanks_space]
    rw [trimmed]
    exact allSome_map fun y hy => by rw [(h y hy).trimmed, (h y hy).value]

/-- Settles O50, form by form. -/
theorem assemblerReadsListText : Obligations.AssemblerReadsListText :=
  ⟨fun _ => parseNumber_hexDigits digitValue_toUpper_digitChar,
    fun _ h => parseBytes_elements fun c hc => isElement_quoted (h c hc),
    fun _ h => parseBytes_elements fun ds hds => isElement_decimal (h ds hds).1 (h ds hds).2⟩

end Sys2Proof.Machine
end

section
/-! PROOFS. The commands in their phases (R60, R101, R102), and the two ways UPDATE ends (R46, R63). -/

namespace Sys2Proof.Machine

/-- R60: in ABSORBING the command runs. -/
theorem State.whileAbsorbing_absorbing {s : State} (h : s.phase = .absorbing) (command : State → State) :
    s.whileAbsorbing command = command s := by
  rw [State.whileAbsorbing, h]

/-- R102: in DONE the command raises `Err(2)`. -/
theorem State.whileAbsorbing_done {s : State} (h : s.phase = .done) (command : State → State) :
    s.whileAbsorbing command = s.raise .cmdAfterFinal none := by
  rw [State.whileAbsorbing, h]

/-- R101: in UNINIT the command raises `Err(1)`. -/
theorem State.whileAbsorbing_uninit {s : State} (h : s.phase = .uninit) (command : State → State) :
    s.whileAbsorbing command = s.raise .cmdBeforeInit none := by
  rw [State.whileAbsorbing, h]

/-- R63: UPDATE in ABSORBING. -/
theorem exec_update_absorbing {s : State} (h : s.phase = .absorbing) (x : Byte) :
    exec (.update x) s = .next ((s.absorbByte x).respond none) :=
  congrArg _ (State.whileAbsorbing_absorbing h _)

/-- R66: FINAL in ABSORBING. -/
theorem exec_final_absorbing {s : State} (h : s.phase = .absorbing) :
    exec .final s = .next (s.finishMessage.respond none) :=
  congrArg _ (State.whileAbsorbing_absorbing h _)

/-- R46: the counter's low half wraps from its largest value only. -/
theorem add_one_eq_zero_iff (w : Word) : w + 1 = 0 ↔ w.toNat = 2 ^ 32 - 1 := by
  have zero : (0 : Word).toNat = 0 := rfl
  have one : (1 : Word).toNat = 1 := rfl
  rw [BitVec.toNat_eq, BitVec.toNat_add, zero, one]
  omega

/-- R46: FILL after UPDATE. -/
theorem State.absorbByte_fill (s : State) (x : Byte) : (s.absorbByte x).fill = (s.fill + 1) % Config.blockBytes := by
  rw [← State.advanceCount_fill, State.fill, State.absorbByte_cntLo, State.fill, State.advanceCount_cntLo]

/-- R63: UPDATE where the block fills. -/
theorem State.absorbByte_of_full {s : State} (h : s.fill + 1 = Config.blockBytes) (x : Byte) :
    s.absorbByte x = (s.memWrite s.fill x).advanceCount.compressBlk :=
  if_pos (((s.memWrite s.fill x).advanceCount_fill).trans (h ▸ Nat.mod_self _))

/-- R63: UPDATE where the block does not fill. -/
theorem State.absorbByte_of_not_full {s : State} (h : s.fill + 1 < Config.blockBytes) (x : Byte) :
    s.absorbByte x = (s.memWrite s.fill x).advanceCount :=
  if_neg fun h0 => Nat.succ_ne_zero s.fill
    ((Nat.mod_eq_of_lt h).symm.trans (((s.memWrite s.fill x).advanceCount_fill).symm.trans h0))

end Sys2Proof.Machine
end

section
/-! PROOFS. The source's multi-byte update is its bytes' UPDATEs in order (R64, R65): both are a left fold of
`State.absorbByte`. -/

namespace Sys2Proof.Machine

/-- R64: a copy of one byte absorbs it. -/
theorem State.copyChunk_singleton (s : State) (x : Byte) : s.copyChunk [x] = s.absorbByte x := by
  have hlt := s.fill_lt
  by_cases hfull : s.fill + 1 = Config.blockBytes
  · rw [State.absorbByte_of_full hfull]
    exact if_pos (show 1 = _ by omega)
  · rw [State.absorbByte_of_not_full (by omega)]
    exact if_neg (show ¬ 1 = _ by omega)

/-- R64: a copy of more bytes, no more than are free, absorbs the first and copies the others: the block does not fill
and the counter does not wrap before its last byte. -/
theorem State.copyChunk_cons {s : State} (x : Byte) {xs : List Byte} (hne : xs ≠ [])
    (hfree : xs.length + 1 ≤ Config.blockBytes - s.fill) : s.copyChunk (x :: xs) = (s.absorbByte x).copyChunk xs := by
  have hpos := List.length_pos_iff.mpr hne
  have hroom : s.fill + 1 < Config.blockBytes := by omega
  have hfill : (s.memWrite s.fill x).advanceCount.fill = s.fill + 1 :=
    (s.memWrite s.fill x).advanceCount_fill.trans (Nat.mod_eq_of_lt hroom)
  have hcount : s.cntLo + BitVec.ofNat 32 (xs.length + 1) = s.cntLo + 1 + BitVec.ofNat 32 xs.length := by
    rw [Nat.add_comm, BitVec.ofNat_add, ← BitVec.add_assoc]
    rfl
  have hnowrap : s.cntLo + 1#32 ≠ 0#32 := fun h0 => by
    replace h0 := (add_one_eq_zero_iff s.cntLo).mp h0
    rw [State.fill, h0] at hroom
    exact absurd hroom (by decide)
  have hlast : xs.length + 1 = Config.blockBytes - s.fill ↔ xs.length = Config.blockBytes - (s.fill + 1) := by omega
  simp [State.copyChunk, hfill, State.absorbByte_of_not_full hroom, hcount, hnowrap, hlast, Memory.writeBytes]

/-- R64: a copy of bytes, no more than are free, absorbs them in order. -/
theorem State.copyChunk_eq_foldl {chunk : List Byte} (hne : chunk ≠ []) {s : State}
    (hfree : chunk.length ≤ Config.blockBytes - s.fill) : s.copyChunk chunk = chunk.foldl State.absorbByte s := by
  induction chunk generalizing s with
  | nil => exact absurd rfl hne
  | cons x xs ih =>
    by_cases hxs : xs = []
    · rw [hxs, State.copyChunk_singleton]
      rfl
    · rw [List.length_cons] at hfree
      have hpos := List.length_pos_iff.mpr hxs
      rw [State.copyChunk_cons x hxs hfree, List.foldl_cons]
      refine ih hxs ?_
      rw [State.absorbByte_fill, Nat.mod_eq_of_lt (by omega)]
      omega

/-- R64: the source's loop absorbs the bytes in order. -/
theorem State.updateLoop_eq_foldl (fuel : Nat) (s : State) {data : List Byte} (h : data.length ≤ fuel) :
    State.updateLoop fuel s data = data.foldl State.absorbByte s := by
  induction fuel generalizing s data with
  | zero => rw [List.length_eq_zero_iff.mp (Nat.le_zero.mp h)]; rfl
  | succ fuel ih =>
    rw [State.updateLoop]
    split_ifs with hdata
    · rw [hdata]
      rfl
    · have hfree : 0 < Config.blockBytes - s.fill := Nat.sub_pos_of_lt s.fill_lt
      have hchunk : data.take (Config.blockBytes - s.fill) ≠ [] := by
        simp [hdata, hfree.ne']
      have hrest : (data.drop (Config.blockBytes - s.fill)).length ≤ fuel := by
        rw [List.length_drop]
        omega
      rw [ih _ hrest, State.copyChunk_eq_foldl hchunk (List.length_take_le _ _), ← List.foldl_append,
        List.take_append_drop]

theorem State.updateSeq_eq_foldl (s : State) (data : List Byte) :
    s.updateSeq data = data.foldl State.absorbByte s :=
  State.updateLoop_eq_foldl data.length s le_rfl

/-- Absorbing a byte does not depend on the response of the access before. -/
theorem State.absorbByte_respond (s : State) (rd : Option Word) (x : Byte) :
    (s.respond rd).absorbByte x = (s.absorbByte x).respond rd := by
  by_cases h : (s.memWrite s.fill x).advanceCount.fill = 0
  · rw [State.absorbByte, State.absorbByte, if_pos h]
    exact if_pos h
  · rw [State.absorbByte, State.absorbByte, if_neg h]
    exact if_neg h

/-- R65: the UPDATEs of bytes, after a command, absorb them in order. -/
theorem execAll_updatesInstrs {s : State} (h : s.phase = .absorbing) (xs : List Byte) :
    execAll (updatesInstrs xs) (s.respond none) = .next ((xs.foldl State.absorbByte s).respond none) := by
  induction xs generalizing s with
  | nil => rfl
  | cons x xs ih =>
    rw [updatesInstrs, List.map_cons, execAll, exec_update_absorbing (s := s.respond none) h, State.absorbByte_respond]
    exact ih ((s.absorbByte_phase x).trans h)

theorem State.foldl_absorbByte_errorRecord (xs : List Byte) (s : State) :
    (xs.foldl State.absorbByte s).err = s.err ∧ (xs.foldl State.absorbByte s).errCause = s.errCause := by
  induction xs generalizing s with
  | nil => exact ⟨rfl, rfl⟩
  | cons x xs ih =>
    obtain ⟨herr, hcause⟩ := ih (s.absorbByte x)
    exact ⟨herr.trans (s.absorbByte_err x), hcause.trans (s.absorbByte_errCause x)⟩

/-- Settles O33: the UPDATEs and the source's loop are the same fold, which continues over a second part. -/
theorem chunkingDoesNotMatter : Obligations.ChunkingDoesNotMatter := by
  intro s d₁ d₂ hp
  simp only [State.updateSeq_eq_foldl, List.foldl_append, and_true]
  obtain ⟨herr, hcause⟩ := State.foldl_absorbByte_errorRecord d₁ s
  cases d₁ with
  | nil => exact ⟨s, rfl, ⟨rfl, rfl, rfl, rfl, rfl⟩, rfl, rfl⟩
  | cons x xs =>
    refine ⟨((x :: xs).foldl State.absorbByte s).respond none, ?_, ?_, herr, hcause⟩
    · rw [updatesInstrs, List.map_cons, execAll, exec_update_absorbing hp]
      exact execAll_updatesInstrs ((s.absorbByte_phase x).trans hp) xs
    · exact ⟨rfl, rfl, rfl, rfl, rfl⟩

end Sys2Proof.Machine
end

section
/-! PROOFS. The bytes of BLK from FILL on in ABSORBING, and all of BLK in DONE, are never read (R15, R73): a simulation
between two states that differ there. -/

namespace Sys2Proof.Machine

/-- What a relation of states needs to be kept by every step: related states agree outside the data registers, and
instructions, errors and the host's list keep it. -/
structure IsSimulation (R : State → State → Prop) : Prop where
  refl : ∀ s, R s s
  outside : ∀ {s t}, R s t → s.sameOutside t
  exec : ∀ (i : Instr) {s t}, R s t → AnswersRelated R (exec i s) (exec i t)
  accept : ∀ {s t}, R s t → R s.accept t.accept
  raise : ∀ (c : ErrCause) (rd : Option Word) {s t}, R s t → R (s.raise c rd) (t.raise c rd)
  withHost : ∀ (rest : List HostEvent) {s t}, R s t → R { s with host := rest } { t with host := rest }

namespace IsSimulation

variable {R : State → State → Prop} {s t : State}

theorem performAccess_related (hR : IsSimulation R) (h : R s t) (a : Access) :
    AnswersRelated R (performAccess a s) (performAccess a t) := by
  cases hd : decode a with
  | ok i =>
    rw [performAccess_ok hd, performAccess_ok hd]
    exact hR.exec i (hR.accept h)
  | error r =>
    rw [performAccess_error hd, performAccess_error hd]
    exact .next (hR.raise _ _ (hR.accept h))

/-- Hardware reset writes everything but `pc`, BASE and the host's list. -/
theorem performEvent_related (hR : IsSimulation R) (h : R s t) (e : HostEvent) :
    AnswersRelated R (performEvent e s) (performEvent e t) := by
  obtain ⟨-, -, -, hpc, -, -, hbase, hhost⟩ := hR.outside h
  cases e with
  | access a =>
    by_cases hsel : a.selects s.baseIndex = true
    · rw [performEvent_selected hsel, performEvent_selected (hbase ▸ hsel)]
      exact hR.performAccess_related h a
    · rw [performEvent_unselected hsel, performEvent_unselected (hbase ▸ hsel)]
      exact .next h
  | reset =>
    have hreset : t.hardwareReset = s.hardwareReset := by
      rw [State.hardwareReset, State.hardwareReset, hpc, hbase, hhost]
    exact .next (hreset ▸ hR.refl s.hardwareReset)
  | resetDuring a => exact .refused .resetDuringAccess
  | interleaved a => exact .refused .interleavedMaster

theorem step_related (hR : IsSimulation R) (h : R s t) : AnswersRelated R (step s) (step t) := by
  obtain ⟨-, -, -, -, -, -, -, hhost⟩ := hR.outside h
  cases hh : s.host with
  | nil =>
    rw [step_idle hh, step_idle (hhost ▸ hh)]
    exact .next h
  | cons e rest =>
    rw [step_event hh, step_event (hhost ▸ hh)]
    exact hR.performEvent_related (hR.withHost rest h) e

theorem observations_eq (hR : IsSimulation R) (h : R s t) (k : Nat) :
    returned k t = returned k s ∧ faults k t = faults k s := by
  have hresponse {s t : State} (h : R s t) : s.rdata = t.rdata ∧ s.raised = t.raised := by
    obtain ⟨-, -, -, -, hrdata, hraised, -, -⟩ := hR.outside h
    exact ⟨hrdata, hraised⟩
  obtain ⟨hreturned, hfaults⟩ := observations_eq_of_simulation hresponse hR.step_related k h
  exact ⟨hreturned.symm, hfaults.symm⟩

end IsSimulation

/-- The two buffers are canonical and agree below FILL: the pending bytes are the same. -/
structure State.SamePending (s : State) (m : Memory) : Prop where
  blk_wf : s.blk.wf = true
  wf : m.wf = true
  read : ∀ i < s.fill, m.read i = s.blk.read i

/-- R73: `m` differs from BLK in stale bytes only: in ABSORBING those from FILL on, in DONE all. -/
def State.StaleBlk (s : State) (m : Memory) : Prop := s.phase = .done ∨ s.phase = .absorbing ∧ s.SamePending m

/-- Equal, or equal but for stale bytes of BLK. -/
def State.SameButStale (s t : State) : Prop := t = s ∨ ∃ m, s.StaleBlk m ∧ t = s.setBlk m

theorem State.SameButStale.refl (s : State) : s.SameButStale s := .inl rfl

theorem State.SameButStale.sameOutside {s t : State} (h : s.SameButStale t) : s.sameOutside t := by
  rcases h with rfl | ⟨m, -, rfl⟩ <;> exact ⟨rfl, rfl, rfl, rfl, rfl, rfl, rfl, rfl⟩

/-- Which bytes are stale depends on the message state only. -/
theorem State.StaleBlk.of_sameMessage {s t : State} {m : Memory} (h : s.StaleBlk m) (hst : s.sameMessage t) :
    t.StaleBlk m := by
  obtain ⟨-, hblk, hlo, -, hphase⟩ := hst
  refine h.imp hphase.symm.trans fun ⟨hp, hm⟩ => ⟨hphase.symm.trans hp, hblk ▸ hm.blk_wf, hm.wf, fun i hi => ?_⟩
  rw [State.fill, ← hlo] at hi
  exact hblk ▸ hm.read i hi

/-! The operations that leave the message state alone. -/

/-- An update that neither reads BLK nor writes the message state keeps the relation. -/
theorem State.SameButStale.map {s t : State} (f : State → State) (hmsg : ∀ u : State, u.sameMessage (f u))
    (hblk : ∀ (u : State) (m : Memory), f (u.setBlk m) = (f u).setBlk m) (h : s.SameButStale t) :
    (f s).SameButStale (f t) := by
  rcases h with rfl | ⟨m, hm, rfl⟩
  · exact .refl (f t)
  · exact .inr ⟨m, hm.of_sameMessage (hmsg s), hblk s m⟩

theorem State.SameButStale.respond {s t : State} (h : s.SameButStale t) (rd : Option Word) :
    (s.respond rd).SameButStale (t.respond rd) :=
  h.map (·.respond rd) (fun _ => ⟨rfl, rfl, rfl, rfl, rfl⟩) fun _ _ => rfl

theorem State.SameButStale.raise {s t : State} (h : s.SameButStale t) (c : ErrCause) (rd : Option Word) :
    (s.raise c rd).SameButStale (t.raise c rd) :=
  h.map (·.raise c rd) (fun _ => ⟨rfl, rfl, rfl, rfl, rfl⟩) fun _ _ => rfl

theorem State.SameButStale.readWhen {s t : State} (h : s.SameButStale t) (allowed : Bool) (v : Word) :
    (s.readWhen allowed v).SameButStale (t.readWhen allowed v) := by
  cases allowed with
  | true => exact h.respond (some v)
  | false => exact h.raise .readNoValue (some 0)

/-! The commands that write BLK. -/

/-- R67: padding overwrites every stale byte. -/
theorem State.SamePending.padBlock {s : State} {m : Memory} (h : s.SamePending m) :
    (s.setBlk m).padBlock = s.padBlock := by
  have hblk : (s.setBlk m).padBlock.blk = s.padBlock.blk := by
    refine Memory.ext_of_read (State.padBlock_wf h.wf) (State.padBlock_wf h.blk_wf) fun i hi => ?_
    rw [State.padBlock_read h.blk_wf i hi, State.padBlock_read (s := s.setBlk m) h.wf i hi]
    exact if_ctx_congr Iff.rfl (h.read i) fun _ => rfl
  exact congrArg s.padBlock.setBlk hblk

/-- R66: FINAL pads first. -/
theorem State.SamePending.finishMessage {s : State} {m : Memory} (h : s.SamePending m) :
    (s.setBlk m).finishMessage = s.finishMessage := by
  rw [State.finishMessage, h.padBlock, State.finishMessage]

/-- R63: UPDATE overwrites the first stale byte. -/
theorem State.SamePending.read_write {s : State} {m : Memory} (h : s.SamePending m) (x : Byte) {i : Nat}
    (hi : i < s.fill + 1) : (m.write s.fill x).read i = (s.blk.write s.fill x).read i := by
  rw [Memory.read_write (Memory.rising_of_wf h.wf), Memory.read_write (Memory.rising_of_wf h.blk_wf)]
  split_ifs with heq
  · rfl
  · exact h.read i (by omega)

theorem State.SamePending.absorbByte {s : State} {m : Memory} (h : s.SamePending m) (x : Byte) :
    (s.absorbByte x).SamePending (m.write s.fill x) where
  blk_wf := State.absorbByte_wf h.blk_wf x
  wf := Memory.write_wf h.wf s.fill_lt x
  read i hi := by
    rw [State.absorbByte_fill] at hi
    rw [State.absorbByte_blk]
    exact h.read_write x (hi.trans_le (Nat.mod_le _ _))

/-- R63, R75: UPDATE compresses when it has overwritten the last stale byte. -/
theorem State.SamePending.absorbByte_setBlk {s : State} {m : Memory} (h : s.SamePending m) (x : Byte) :
    (s.setBlk m).absorbByte x = (s.absorbByte x).setBlk (m.write s.fill x) := by
  have hlt := s.fill_lt
  by_cases hfull : s.fill + 1 = Config.blockBytes
  · have hcompress : compress s.h (m.write s.fill x).read = compress s.h (s.blk.write s.fill x).read :=
      compress_congr s.h fun i hi => h.read_write x (hfull ▸ hi)
    rw [State.absorbByte_of_full hfull, State.absorbByte_of_full (s := s.setBlk m) hfull]
    exact congrArg (fun c => ((s.setBlk m).memWrite s.fill x).advanceCount.setH c) hcompress
  · have hroom : s.fill + 1 < Config.blockBytes := by omega
    rw [State.absorbByte_of_not_full hroom, State.absorbByte_of_not_full (s := s.setBlk m) hroom]
    rfl

/-- R60: a command that keeps the relation in ABSORBING keeps it in DONE too, where it raises an error. -/
theorem State.StaleBlk.whileAbsorbing {s : State} {m : Memory} (h : s.StaleBlk m) {command : State → State}
    (hcommand : s.phase = .absorbing → s.SamePending m → (command s).SameButStale (command (s.setBlk m))) :
    (s.whileAbsorbing command).SameButStale ((s.setBlk m).whileAbsorbing command) := by
  have hset : s.SameButStale (s.setBlk m) := .inr ⟨m, h, rfl⟩
  rcases h with hp | ⟨hp, hm⟩
  · rw [State.whileAbsorbing_done hp, State.whileAbsorbing_done (s := s.setBlk m) hp]
    exact hset.raise .cmdAfterFinal none
  · rw [State.whileAbsorbing_absorbing hp, State.whileAbsorbing_absorbing (s := s.setBlk m) hp]
    exact hcommand hp hm

/-! The simulation. -/

/-- No instruction reads a stale byte: INIT clears BLK, UPDATE and FINAL overwrite the bytes they compress, and the
reads and errors leave BLK alone. -/
theorem exec_sameButStale (i : Instr) {s t : State} (h : s.SameButStale t) :
    AnswersRelated State.SameButStale (exec i s) (exec i t) := by
  rcases h with rfl | ⟨m, hm, rfl⟩
  · exact .refl .refl (exec i t)
  · have hset : s.SameButStale (s.setBlk m) := .inr ⟨m, hm, rfl⟩
    cases i with
    | init => exact .next (.refl (s.startMessage.respond none))
    | update x =>
      refine .next (hm.whileAbsorbing fun hp hpending => State.SameButStale.respond ?_ none)
      exact .inr ⟨_, .inr ⟨(s.absorbByte_phase x).trans hp, hpending.absorbByte x⟩, hpending.absorbByte_setBlk x⟩
    | final =>
      exact .next (hm.whileAbsorbing fun _ hpending => .inl (congrArg (·.respond none) hpending.finishMessage))
    | rdStatus => exact .next (hset.respond (some s.status))
    | rdCountLo | rdCountHi | rdDigest0 | rdDigest1 | rdDigest2 | rdDigest3 | rdDigest4 =>
      exact .next (hset.readWhen _ _)

theorem isSimulation_sameButStale : IsSimulation State.SameButStale where
  refl := State.SameButStale.refl
  outside := State.SameButStale.sameOutside
  exec := exec_sameButStale
  accept := State.SameButStale.map State.accept (fun _ => ⟨rfl, rfl, rfl, rfl, rfl⟩) fun _ _ => rfl
  raise c rd := fun h => h.raise c rd
  withHost rest := State.SameButStale.map (fun u => { u with host := rest }) (fun _ => ⟨rfl, rfl, rfl, rfl, rfl⟩)
    fun _ _ => rfl

/-- Settles O45, by the simulation `State.SameButStale`. -/
theorem staleBytesAreUnobservable : Obligations.StaleBytesAreUnobservable :=
  ⟨fun _ m k hp hs hm hread =>
      isSimulation_sameButStale.observations_eq (.inr ⟨m, .inr ⟨hp, hs, hm, hread⟩, rfl⟩) k,
    fun _ m k hp => isSimulation_sameButStale.observations_eq (.inr ⟨m, .inl hp, rfl⟩) k⟩

end Sys2Proof.Machine
end

section
/-! PROOFS. What the commands leave (R62, R63, R66 to R70). -/

namespace Sys2Proof.Machine

/-- Settles O32: the two words as one number. -/
theorem lengthWordsAreTheBitLength : Obligations.LengthWordsAreTheBitLength := fun hi lo => by
  rw [Nat.mul_comm, length_toNat]

/-- Settles O3: INIT writes the message state and reads no register, so a second INIT leaves what the first left. -/
theorem initStartsMessage : Obligations.InitStartsMessage := by
  refine ⟨rfl, fun v hop hne => ?_, fun s => ⟨s.startMessage.respond none, rfl, rfl, fun i => rfl, rfl, rfl, rfl, rfl,
    rfl, rfl, rfl, rfl, rfl, rfl, rfl⟩⟩
  rw [decodeCommand_error_iff]
  have : v.toNat ≠ 1 := fun h => hne (BitVec.eq_of_toNat_eq h)
  omega

/-- R49, R50: UPDATE's word. -/
theorem decodeCommand_updateWord (x : Byte) :
    decodeCommand ((0x0000 : BitVec 16) ++ x ++ (0x02 : BitVec 8)) = .ok (.update x) := by
  have two : (0x02 : BitVec 8).toNat = 2 := rfl
  have zero : (0x0000 : BitVec 16).toNat = 0 := rfl
  rw [decodeCommand_update_iff, BitVec.toNat_append, BitVec.toNat_append,
    ← Nat.shiftLeft_add_eq_or_of_lt (0x02 : BitVec 8).isLt, ← Nat.shiftLeft_add_eq_or_of_lt x.isLt, two, zero]
  omega

/-- R46: CNTLO after UPDATE, as a number. -/
theorem State.absorbByte_cntLo_toNat (s : State) (x : Byte) :
    (s.absorbByte x).cntLo.toNat = (s.cntLo.toNat + 1) % 2 ^ 32 := by
  rw [State.absorbByte_cntLo, BitVec.toNat_add]
  rfl

/-- R46: CNTHI after UPDATE, as a number. -/
theorem State.absorbByte_cntHi_toNat (s : State) (x : Byte) :
    (s.absorbByte x).cntHi.toNat
      = if s.cntLo.toNat = 2 ^ 32 - 1 then (s.cntHi.toNat + 1) % 2 ^ 32 else s.cntHi.toNat := by
  rw [State.absorbByte_cntHi, apply_ite BitVec.toNat, BitVec.toNat_add]
  exact if_congr (add_one_eq_zero_iff s.cntLo) rfl rfl

/-- R63: UPDATE compresses exactly when the byte is the block's last. -/
theorem State.absorbByte_compressed (s : State) (x : Byte) :
    (s.absorbByte x).h = if s.fill = 63 then compress s.h (s.absorbByte x).blk.read else s.h := by
  have hlt : s.fill < 64 := s.fill_lt
  rw [State.absorbByte_h, State.absorbByte_blk]
  exact if_congr (by rw [Config.blockBytes]; omega) rfl rfl

/-- Settles O4: the absorbed byte, register by register. -/
theorem updateAbsorbsOneByte : Obligations.UpdateAbsorbsOneByte := by
  refine fun x => ⟨decodeCommand_updateWord x, fun s hw => ⟨fun hp => ?_, fun hp => ?_, fun hp => ?_⟩⟩
  · have hread (i : Nat) : (s.absorbByte x).blk.read i = if i = s.fill then x else s.blk.read i := by
      rw [State.absorbByte_blk, Memory.read_write (Memory.rising_of_wf hw)]
    refine ⟨_, exec_update_absorbing hp x, (hread _).trans (if_pos rfl), fun i hi => (hread i).trans (if_neg hi),
      s.absorbByte_cntLo_toNat x, s.absorbByte_cntHi_toNat x, s.absorbByte_compressed x, ?_⟩
    simp [hp]
  · exact congrArg _ (State.whileAbsorbing_uninit hp _)
  · exact congrArg _ (State.whileAbsorbing_done hp _)

/-- R31: a canonical buffer lists no address of 64 or more. -/
theorem Memory.read_of_blockBytes_le {m : Memory} (h : m.wf = true) {i : Nat} (hi : Config.blockBytes ≤ i) :
    m.read i = Config.unlistedByte := by
  obtain ⟨hlt, -⟩ := (Memory.wf_iff m).mp h
  clear h
  induction m with
  | nil => rfl
  | cons c m ih =>
    have hc := (hlt c List.mem_cons_self).1
    rw [Memory.read_cons, if_neg (by omega)]
    exact ih fun d hd => hlt d (List.mem_cons_of_mem c hd)

theorem State.padBlock_fill (s : State) : s.padBlock.fill = s.fill := by
  rw [State.fill, State.padBlock_cntLo, State.fill]

/-- R68, R69: the block FINAL compresses last. -/
theorem State.finishMessage_read {s : State} (h : s.blk.wf = true) {i : Nat} (hi : i < 64) :
    s.finishMessage.blk.read i = lastByte s i := by
  have hcount : s.cntHi.toNat * 2 ^ 32 + s.cntLo.toNat = (s.cntHi.toNat * 2 ^ 32 + s.cntLo.toNat) % 2 ^ 64 := by
    omega
  rw [State.finishMessage_blk, State.writeLength_read (State.makeRoom_wf (State.padBlock_wf h)), State.makeRoom_cntHi,
    State.makeRoom_cntLo, State.padBlock_cntHi, State.padBlock_cntLo, State.makeRoom_blk, lastByte]
  by_cases h56 : 56 ≤ i
  · rw [if_pos ⟨h56, hi⟩, if_pos h56]
    exact lengthWords_getD _ _ hcount h56 hi
  · rw [if_neg fun hin => h56 hin.1, if_neg h56, State.padBlock_fill]
    by_cases hroom : s.fill ≤ 55
    · rw [if_neg (by omega)]
      exact (State.padBlock_read h i hi).trans (if_pos hroom).symm
    · rw [if_pos (by omega)]
      exact (if_neg hroom).symm

/-- R70: H after FINAL, by the number of pending bytes. -/
theorem State.finishMessage_compressed {s : State} (h : s.blk.wf = true) :
    s.finishMessage.h = if s.fill ≤ 55 then compress s.h (lastByte s)
      else compress (compress s.h (paddedByte s)) (lastByte s) := by
  have hlast : s.finishMessage.h = compress s.padBlock.makeRoom.h (lastByte s) := by
    rw [State.finishMessage_h, ← State.finishMessage_blk]
    exact compress_congr _ fun i hi => State.finishMessage_read h hi
  rw [hlast, State.makeRoom_h, State.padBlock_fill, State.padBlock_h]
  by_cases hroom : s.fill ≤ 55
  · rw [if_neg (by omega), if_pos hroom]
  · rw [if_pos (by omega), if_neg hroom,
      compress_congr s.h fun i hi => show _ = paddedByte s i from State.padBlock_read h i hi]

/-- Settles O5: FINAL's H and BLK by the lemmas above; from address 64 on a canonical buffer lists nothing. -/
theorem finalPadsAndCompresses : Obligations.FinalPadsAndCompresses := by
  refine ⟨rfl, fun s hw => ⟨fun hp => ?_, fun hp => ?_, fun hp => ?_⟩⟩
  · refine ⟨_, exec_final_absorbing hp, State.finishMessage_compressed hw, fun i hi => State.finishMessage_read hw hi,
      fun i hi => ?_, ?_⟩
    · exact (Memory.read_of_blockBytes_le (State.finishMessage_wf hw) hi).trans (Memory.read_of_blockBytes_le hw hi).symm
    · simp
  · exact congrArg _ (State.whileAbsorbing_uninit hp _)
  · exact congrArg _ (State.whileAbsorbing_done hp _)

end Sys2Proof.Machine
end

section
/-! PROOFS. In DONE only INIT and hardware reset change the message state (R71, R102, R123). -/

namespace Sys2Proof.Machine

/-- R102, R123: in DONE every instruction but INIT responds or raises an error, and leaves the message state alone. -/
theorem exec_sameMessage_of_done {i : Instr} {s t : State} (hp : s.phase = .done) (hi : i ≠ .init)
    (h : exec i s = .next t) : t.sameMessage s := by
  rcases exec_next_cases h with ⟨rfl, -⟩ | ⟨x, -, hp', -⟩ | ⟨-, hp', -⟩ | ⟨v, rfl⟩ | ⟨c, rd, -, rfl⟩
  · exact absurd rfl hi
  · exact absurd (hp.symm.trans hp') (by decide)
  · exact absurd (hp.symm.trans hp') (by decide)
  · exact ⟨rfl, rfl, rfl, rfl, rfl⟩
  · exact ⟨rfl, rfl, rfl, rfl, rfl⟩

theorem afterAccess_sameMessage_of_done {a : Access} {s : State} (hp : s.phase = .done) (ha : decode a ≠ .ok .init) :
    (afterAccess s a).sameMessage s := by
  by_cases hsel : a.selects s.baseIndex = true
  · obtain ⟨t, ht⟩ := performAccess_isNext a s
    rw [afterAccess_selected hsel ht]
    rcases performAccess_next_cases ht with ⟨i, hd, hi⟩ | ⟨c, rfl⟩
    · exact exec_sameMessage_of_done (s := s.accept) hp (fun h => ha (h ▸ hd)) hi
    · exact ⟨rfl, rfl, rfl, rfl, rfl⟩
  · rw [afterAccess, if_neg hsel]
    exact ⟨rfl, rfl, rfl, rfl, rfl⟩

theorem State.sameMessage.trans {s t u : State} (h : s.sameMessage t) (h' : t.sameMessage u) : s.sameMessage u := by
  obtain ⟨hh, hblk, hlo, hhi, hphase⟩ := h
  obtain ⟨hh', hblk', hlo', hhi', hphase'⟩ := h'
  exact ⟨hh.trans hh', hblk.trans hblk', hlo.trans hlo', hhi.trans hhi', hphase.trans hphase'⟩

/-- Settles O41, by induction on the accesses. -/
theorem digestStaysUntilTheNextInit : Obligations.DigestStaysUntilTheNextInit := by
  intro as
  induction as with
  | nil => exact fun s _ _ => ⟨s.issuing [], rfl, rfl, rfl, rfl, rfl, rfl⟩
  | cons a as ih =>
    intro s hp has
    obtain ⟨ha, has⟩ := List.forall_mem_cons.mp has
    have hfirst := afterAccess_sameMessage_of_done hp ha
    have ⟨_, _, _, _, hphase⟩ := hfirst
    obtain ⟨t, ht, hrest⟩ := ih (afterAccess s a) (hphase.trans hp) has
    exact ⟨t, (runAccesses_cons s a as).trans ht, hrest.trans hfirst⟩

end Sys2Proof.Machine
end

section
/-! PROOFS. One round of the compression step, and the block it reads (R75, R79 to R84). -/

namespace Sys2Proof.Machine

/-- Settles O29: both blocks unpack to the same sixteen words. -/
theorem compressReadsOnlyItsBlock : Obligations.CompressReadsOnlyItsBlock :=
  fun h _ _ heq => compress_congr h heq

/-- R79: the two terms of choose have no bit in common, so joining them is the exclusive or. -/
theorem choose_eq_xor (b c d : Word) : choose b c d = (b &&& c) ^^^ (~~~b &&& d) := by
  have hbit : ∀ p q r : Bool, (p && q || !p && r) = (p && q ^^ (!p && r)) := by decide
  ext i hi
  simp only [choose, BitVec.getElem_or, BitVec.getElem_and, BitVec.getElem_not, BitVec.getElem_xor, hbit]

/-- R81: of the three pairs of bits, one or all three are set when the majority is, and none otherwise. -/
theorem majority_eq_xor (b c d : Word) : majority b c d = (b &&& c) ^^^ (b &&& d) ^^^ (c &&& d) := by
  have hbit : ∀ p q r : Bool, (p && q || p && r || q && r) = (p && q ^^ (p && r) ^^ (q && r)) := by decide
  ext i hi
  simp only [majority, BitVec.getElem_or, BitVec.getElem_and, BitVec.getElem_xor, hbit]

/-- Settles O27, bit by bit. -/
theorem roundFunctionsHaveXorForms : Obligations.RoundFunctionsHaveXorForms :=
  fun b c d => ⟨choose_eq_xor b c d, majority_eq_xor b c d⟩

/-! The function and the constant of each range of rounds. -/

theorem round_choose {t : Nat} (h : t ≤ 19) (b c d : Word) :
    roundFunction t b c d = choose b c d ∧ roundConstant t = 0x5A827999 :=
  ⟨if_pos h, if_pos h⟩

theorem round_parity {t : Nat} (h : 20 ≤ t) (h' : t ≤ 39) (b c d : Word) :
    roundFunction t b c d = parity b c d ∧ roundConstant t = 0x6ED9EBA1 := by
  have h19 : ¬ t ≤ 19 := by omega
  simp only [roundFunction, roundConstant, if_neg h19, if_pos h', and_self]

theorem round_majority {t : Nat} (h : 40 ≤ t) (h' : t ≤ 59) (b c d : Word) :
    roundFunction t b c d = majority b c d ∧ roundConstant t = 0x8F1BBCDC := by
  have h19 : ¬ t ≤ 19 := by omega
  have h39 : ¬ t ≤ 39 := by omega
  simp only [roundFunction, roundConstant, if_neg h19, if_neg h39, if_pos h', and_self]

theorem round_last_parity {t : Nat} (h : 60 ≤ t) (b c d : Word) :
    roundFunction t b c d = parity b c d ∧ roundConstant t = 0xCA62C1D6 := by
  have h19 : ¬ t ≤ 19 := by omega
  have h39 : ¬ t ≤ 39 := by omega
  have h59 : ¬ t ≤ 59 := by omega
  simp only [roundFunction, roundConstant, if_neg h19, if_neg h39, if_neg h59, and_self]

/-- R84: the new `a`, for a round whose function value and constant are known. -/
theorem roundUpdate_a {v : Working} {t : Nat} {f k : Word}
    (h : roundFunction t v.b v.c v.d = f ∧ roundConstant t = k) (w : Word) :
    (roundUpdate v w t).a = v.a.rotateLeft 5 + v.e + w + f + k := by
  obtain ⟨rfl, rfl⟩ := h
  rw [roundUpdate, rotl_eq_rotateLeft _ (by decide)]

/-- Settles O26: the shifts by definition, the new `a` by the range of the round. -/
theorem roundUsesItsFunctionAndConstant : Obligations.RoundUsesItsFunctionAndConstant :=
  fun v w _ => ⟨rfl, rfl, rotl_eq_rotateLeft v.b (by decide), rfl,
    fun h => roundUpdate_a (round_choose h _ _ _) w,
    fun h h' => roundUpdate_a (round_parity h h' _ _ _) w,
    fun h h' => roundUpdate_a (round_majority h h' _ _ _) w,
    fun h _ => roundUpdate_a (round_last_parity h _ _ _) w⟩

end Sys2Proof.Machine
end

section
/-! PROOFS. The in-place 16-word schedule against the expanded 80-word one (R76 to R78, R86, R87). -/

namespace Sys2Proof.Machine

/-- R78: the schedule after the steps of rounds 0 to `n - 1`. -/
def scheduleAfter (block : Nat → Byte) (n : Nat) : Schedule := (List.range n).foldl scheduleStep (unpack block)

theorem scheduleAfter_zero (block : Nat → Byte) : scheduleAfter block 0 = unpack block := rfl

theorem scheduleAfter_succ (block : Nat → Byte) (n : Nat) :
    scheduleAfter block (n + 1) = scheduleStep (scheduleAfter block n) n := by
  rw [scheduleAfter, List.range_succ, List.foldl_append]
  rfl

/-- R84: the working variables after the first `n` rounds over the schedule words `x`. -/
def expandedRounds (h : Chaining) (x : Nat → Word) (n : Nat) : Working :=
  (List.range n).foldl (fun v t => roundUpdate v (x t) t) (workingOf h)

theorem expandedRounds_succ (h : Chaining) (x : Nat → Word) (n : Nat) :
    expandedRounds h x (n + 1) = roundUpdate (expandedRounds h x n) (x n) n := by
  rw [expandedRounds, List.range_succ, List.foldl_append]
  rfl

/-- R87: `x` is the expanded schedule of the block. -/
structure IsExpandedSchedule (block : Nat → Byte) (x : Nat → Word) : Prop where
  loaded : ∀ t, t ≤ 15 → x t = be32 (block (4 * t)) (block (4 * t + 1)) (block (4 * t + 2)) (block (4 * t + 3))
  recurrence : ∀ t, 16 ≤ t → t ≤ 79 → x t = rotl (x (t - 3) ^^^ x (t - 8) ^^^ x (t - 14) ^^^ x (t - 16)) 1

namespace IsExpandedSchedule

variable {block : Nat → Byte} {x : Nat → Word}

/-- The invariant of the in-place schedule: after the steps of rounds below `n` its slots hold the latest sixteen
expanded words, those of the rounds from `n - 16` on (at the start, those of rounds 0 to 15). -/
theorem scheduleAfter_slot (hx : IsExpandedSchedule block x) {n : Nat} (hn : n ≤ 80) :
    ∀ j, n ≤ j + 16 → j < max n 16 → (scheduleAfter block n).slot j = x j := by
  induction n with
  | zero =>
    intro j _ hj
    rw [scheduleAfter_zero, unpack_slot block (by omega), hx.loaded j (by omega)]
  | succ n ih =>
    have ih := ih (by omega)
    intro j hlo hhi
    rw [scheduleAfter_succ]
    by_cases hstep : n < 16
    · rw [scheduleStep_of_lt _ hstep]
      exact ih j (by omega) (by omega)
    · rw [scheduleStep_slot _ (by omega)]
      by_cases hj : j = n
      · have holdest : (scheduleAfter block n).slot n = x (n - 16) := by
          rw [← Schedule.slot_mod, show n % 16 = (n - 16) % 16 by omega, Schedule.slot_mod]
          exact ih (n - 16) (by omega) (by omega)
        rw [if_pos (by rw [hj]), ih (n - 3) (by omega) (by omega), ih (n - 8) (by omega) (by omega),
          ih (n - 14) (by omega) (by omega), holdest, hj, hx.recurrence n (by omega) (by omega)]
      · rw [if_neg (by omega)]
        exact ih j (by omega) (by omega)

/-- R87: the schedule word of round `t`. -/
theorem scheduleAfter_succ_slot (hx : IsExpandedSchedule block x) {t : Nat} (ht : t ≤ 79) :
    (scheduleAfter block (t + 1)).slot t = x t :=
  hx.scheduleAfter_slot (by omega) t (by omega) (by omega)

/-- R86: the rounds with the in-place schedule compute what the rounds over the expanded schedule do. -/
theorem foldl_compressRound (hx : IsExpandedSchedule block x) (h : Chaining) {n : Nat} (hn : n ≤ 80) :
    (List.range n).foldl compressRound (unpack block, workingOf h)
      = (scheduleAfter block n, expandedRounds h x n) := by
  induction n with
  | zero => rfl
  | succ n ih =>
    rw [List.range_succ, List.foldl_append, ih (by omega), List.foldl_cons, List.foldl_nil]
    refine Prod.ext ?_ ?_
    · rw [compressRound_schedule, scheduleAfter_succ]
    · rw [compressRound_working, ← scheduleAfter_succ, hx.scheduleAfter_succ_slot (by omega), expandedRounds_succ]

/-- R85, R87: the compression step over the expanded schedule. -/
theorem compress_eq (hx : IsExpandedSchedule block x) (h : Chaining) :
    compress h block = feedForward h (expandedRounds h x 80) := by
  rw [compress_def, Config.rounds, hx.foldl_compressRound h le_rfl]

end IsExpandedSchedule

/-- Settles O28: by the invariant of the in-place schedule, along the 80 rounds. -/
theorem inPlaceScheduleIsTheExpandedOne : Obligations.InPlaceScheduleIsTheExpandedOne := by
  intro h block x hloaded hrec
  have hx : IsExpandedSchedule block x := ⟨hloaded, hrec⟩
  exact ⟨fun t ht => hx.scheduleAfter_succ_slot ht, expandedRounds h x 80, rfl, hx.compress_eq h⟩

end Sys2Proof.Machine
end

section
/-! PROOFS. What the register reads return in each phase (R23, R89 to R97). -/

namespace Sys2Proof.Machine

/-- R23: STATUS as a number, its fields at their places. -/
theorem State.status_toNat (s : State) :
    s.status.toNat = s.phase.code.toNat + 4 * s.err.toNat + 256 * s.errCause.toNat := by
  have hphase := s.phase.code.isLt
  have herr := s.err.toNat_lt
  have hcause := s.errCause.isLt
  have reserved : (0 : BitVec 5).toNat = 0 := rfl
  rw [State.status, BitVec.toNat_setWidth, BitVec.toNat_append, ← Nat.shiftLeft_add_eq_or_of_lt hphase,
    BitVec.toNat_append, ← Nat.shiftLeft_add_eq_or_of_lt (BitVec.isLt _), BitVec.toNat_append,
    ← Nat.shiftLeft_add_eq_or_of_lt (BitVec.isLt _), BitVec.toNat_ofBool, reserved]
  simp only [Nat.shiftLeft_eq]
  omega

/-- R20: PHASE has three codes. -/
theorem Phase.code_lt (p : Phase) : p.code.toNat < 3 := by
  cases p <;> decide

/-- Settles O7: the fields of `State.status_toNat`, each below the width of its place. -/
theorem statusReadsEveryField : Obligations.StatusReadsEveryField := by
  refine ⟨rfl, fun s => ⟨s.status, rfl, ?_⟩⟩
  have hphase := s.phase.code_lt
  have herr := s.err.toNat_lt
  have hcause := s.errCause.isLt
  have phaseField : s.status.toNat % 4 = s.phase.code.toNat := by
    rw [s.status_toNat]
    omega
  have errBit : (if s.err = true then 1 else 0) = s.err.toNat := by cases s.err <;> rfl
  refine ⟨phaseField.trans (by cases s.phase <;> rfl), ?_⟩
  rw [s.status_toNat, errBit]
  exact ⟨by omega, by omega, by omega, by omega, fun ⟨_, _, hle, _⟩ => by omega⟩

/-- R89: an allowed read returns its value and changes only the response. -/
theorem State.readWhen_allowed (s : State) {allowed : Bool} (h : allowed = true) (v : Word) :
    s.readWhen allowed v = s.reading v :=
  if_pos h

/-- R105: a read of a value that does not exist raises `Err(5)` and returns 0. -/
theorem State.readWhen_noValue (s : State) {allowed : Bool} (h : allowed = false) (v : Word) :
    s.readWhen allowed v = s.rejecting .readNoValue 5 (some 0) :=
  if_neg (Bool.not_eq_true _ ▸ h)

/-- Settles O8: both reads are allowed outside UNINIT. -/
theorem countReads : Obligations.CountReads := by
  refine ⟨rfl, rfl, fun s => ⟨fun hp => ?_, fun hp => ?_⟩⟩
  · have allowed : (s.phase != .uninit) = true := bne_iff_ne.mpr hp
    exact ⟨congrArg _ (s.readWhen_allowed allowed s.cntLo), congrArg _ (s.readWhen_allowed allowed s.cntHi)⟩
  · have noValue : (s.phase != .uninit) = false := bne_eq_false_iff_eq.mpr hp
    exact ⟨congrArg _ (s.readWhen_noValue noValue s.cntLo), congrArg _ (s.readWhen_noValue noValue s.cntHi)⟩

/-- Settles O9: the five reads are allowed in DONE. -/
theorem digestReads : Obligations.DigestReads := by
  refine ⟨rfl, rfl, rfl, rfl, rfl, fun s => ⟨fun hp => ?_, fun hp i hi => ?_⟩⟩
  · have returns (v : Word) : (.next (s.readWhen (s.phase == .done) v) : Result) = .next (s.reading v) :=
      congrArg _ (s.readWhen_allowed (beq_iff_eq.mpr hp) v)
    exact ⟨returns s.h.h0, returns s.h.h1, returns s.h.h2, returns s.h.h3, returns s.h.h4⟩
  · have noValue : (s.phase == .done) = false := beq_eq_false_iff_ne.mpr hp
    rcases hi with rfl | rfl | rfl | rfl | rfl <;> exact congrArg _ (s.readWhen_noValue noValue _)

end Sys2Proof.Machine
end

section
/-! PROOFS. The bad accesses of the window (R52, R98, R104). -/

namespace Sys2Proof

/-- R52: a write that is not 32 bits wide or not to CMD is a bad access. -/
theorem decode_write_badAccess {addr size : Nat} (v : Word) (h : size ≠ 4 ∨ addr % 256 ≠ 0) :
    decode (.write addr size v) = .error .badAccess := by
  by_cases hw : (Access.write addr size v).wellShaped = true
  · obtain ⟨hsize, -⟩ := (Access.wellShaped_iff _).mp hw
    have hoff : (Access.write addr size v).off.toNat ≠ 0 := Access.off_toNat _ ▸ h.resolve_left (absurd hsize)
    rw [decode_write hw, if_neg fun hzero => hoff (congrArg BitVec.toNat (beq_iff_eq.mp hzero))]
  · exact decode_of_not_wellShaped (Bool.eq_false_of_not_eq_true hw)

/-- R52, R53: a read is one of the eight, or a bad access. -/
theorem decode_read_cases (addr size : Nat) :
    (∃ i, decode (.read addr size) = .ok i) ∨ decode (.read addr size) = .error .badAccess := by
  by_cases hw : (Access.read addr size).wellShaped = true
  · rw [decode_read hw, decodeRead]
    split_ifs <;> simp
  · exact .inr (decode_of_not_wellShaped (Bool.eq_false_of_not_eq_true hw))

/-- R53: the reads are issued at offsets 0x04 to 0x20. -/
theorem Instr.offset_of_read {i : Instr} (h : commandWord i = none) : 0 < i.offset ∧ i.offset < 0x24 := by
  cases i with
  | init | update _ | final => cases h
  | rdStatus | rdCountLo | rdCountHi | rdDigest0 | rdDigest1 | rdDigest2 | rdDigest3 | rdDigest4 => decide

/-- R52: a read that is not 32 bits wide, not aligned, of CMD, or past DIGEST4 is a bad access. -/
theorem decode_read_badAccess {addr size : Nat}
    (h : size ≠ 4 ∨ addr % 4 ≠ 0 ∨ addr % 256 = 0 ∨ 0x24 ≤ addr % 256) :
    decode (.read addr size) = .error .badAccess := by
  refine (decode_read_cases addr size).resolve_left fun ⟨i, hi⟩ => ?_
  obtain ⟨hsize, hread, hoff⟩ := (decode_read_ok_iff addr size i).mp hi
  have hrange := Instr.offset_of_read hread
  have haligned := i.offset_mod_four
  omega

namespace Machine

/-- R103, R104: a step whose oldest event is a rejected access of the window raises its cause and changes nothing
else. -/
theorem step_rejected {s : State} {a : Access} {rest : List HostEvent} {r : Reject} (hh : s.host = .access a :: rest)
    (hsel : a.selects s.baseIndex = true) (hd : decode a = .error r) :
    step s = .next ((s.taking rest).rejecting (rejectCause r) (rejectCause r).code a.errorData) :=
  (step_selected hh hsel).trans (performAccess_error hd _)

/-- Settles O14: each access is in the window and decodes to a bad access. -/
theorem badAccessRaises : Obligations.BadAccessRaises := by
  intro s off size v rest hoff
  have inWindow (a : Access) (ha : a.addr = 256 * s.baseIndex + off) : a.selects s.baseIndex = true :=
    (selects_iff a s.baseIndex).mpr (by omega)
  refine ⟨fun hh hbad => ?_, fun hh hbad => ?_⟩
  · exact step_rejected hh (inWindow _ rfl) (decode_write_badAccess v (by omega))
  · exact step_rejected hh (inWindow _ rfl) (decode_read_badAccess (by omega))

end Machine
end Sys2Proof
end

section
/-! PROOFS. The cause an access raises is the one R106's checks give, and raising it is precise (R99 to R106). -/

namespace Sys2Proof

/-- R53: a 32-bit read at a multiple of 4 from 0x04 to 0x20 is an instruction. -/
theorem decode_read_isRead {addr : Nat} (haligned : addr % 4 = 0) (hlo : 0 < addr % 256) (hhi : addr % 256 < 0x24) :
    ∃ i, decode (.read addr 4) = .ok i := by
  simp only [decode_read_ok_iff, exists_instr, commandWord, Instr.offset, reduceCtorEq, false_and,
    exists_const, false_or, true_and]
  omega

/-- R52: a 32-bit write to CMD is what its word says. -/
theorem decode_write_cmd {addr : Nat} (h : addr % 256 = 0) (v : Word) :
    decode (.write addr 4 v) = decodeCommand v := by
  have shaped : (Access.write addr 4 v).wellShaped = true :=
    (Access.wellShaped_iff _).mpr ⟨rfl, show addr % 4 = 0 by omega⟩
  have hoff : (Access.write addr 4 v).off = 0x00 := BitVec.eq_of_toNat_eq ((Access.off_toNat _).trans h)
  rw [decode_write shaped, if_pos (beq_iff_eq.mpr hoff)]

/-- R99: a command that is not performed returns nothing. -/
theorem Access.errorData_of_command {a : Access} {i : Instr} (hd : decode a = .ok i) (hi : commandWord i ≠ none) :
    a.errorData = none := by
  cases a with
  | write addr size v => rfl
  | read addr size => exact absurd ((decode_read_ok_iff addr size i).mp hd).2.1 hi

/-- R99: a register read that is not performed returns 0. -/
theorem Access.errorData_of_read {a : Access} {i : Instr} (hd : decode a = .ok i) (hi : commandWord i = none) :
    a.errorData = some 0 := by
  cases a with
  | write addr size v => exact absurd (((decode_write_ok_iff addr size v i).mp hd).2.2.symm.trans hi) nofun
  | read addr size => rfl

namespace Machine

/-! R106's checks, one outcome each. -/

section Checks

variable {addr size : Nat} {v : Word} (s : State)

theorem causeOf_write_badAccess (h : size ≠ 4 ∨ addr % 256 ≠ 0) :
    causeOf (.write addr size v) s = some .badAccess := by
  by_cases hshape : size ≠ 4 ∨ addr % 4 ≠ 0
  · exact if_pos hshape
  · exact (if_neg hshape).trans (if_pos (by omega))

/-- R106: a 32-bit write to CMD passes the checks of its shape and its offset. -/
theorem causeOf_write_cmd (h : addr % 256 = 0) : causeOf (.write addr 4 v) s = causeOf (.write 0 4 v) s := by
  have aligned : addr % 4 = 0 := by omega
  simp only [causeOf, h, aligned, Nat.zero_mod]

theorem causeOf_init (h : addr % 256 = 0) (hv : v.toNat = 1) : causeOf (.write addr 4 v) s = none :=
  (causeOf_write_cmd s h).trans (if_pos hv)

theorem causeOf_illegalCmd (h : addr % 256 = 0) (h1 : v.toNat ≠ 1)
    (hv : ¬ (v.toNat = 3 ∨ (v.toNat % 256 = 2 ∧ v.toNat < 65536))) :
    causeOf (.write addr 4 v) s = some .illegalCmd :=
  (causeOf_write_cmd s h).trans ((if_neg h1).trans (if_neg hv))

/-- R106: a legal UPDATE or FINAL word comes to the check of the phase. -/
theorem causeOf_messageCommand (h : addr % 256 = 0) (hv : v.toNat = 3 ∨ (v.toNat % 256 = 2 ∧ v.toNat < 65536)) :
    (s.phase = .uninit → causeOf (.write addr 4 v) s = some .cmdBeforeInit)
    ∧ (s.phase = .absorbing → causeOf (.write addr 4 v) s = none)
    ∧ (s.phase = .done → causeOf (.write addr 4 v) s = some .cmdAfterFinal) := by
  have h1 : v.toNat ≠ 1 := by omega
  rw [causeOf_write_cmd s h]
  refine ⟨fun hp => ?_, fun hp => ?_, fun hp => ?_⟩ <;> simp [causeOf, h1, hv, hp]

theorem causeOf_read_badAccess (h : size ≠ 4 ∨ addr % 4 ≠ 0 ∨ addr % 256 = 0 ∨ 0x24 ≤ addr % 256) :
    causeOf (.read addr size) s = some .badAccess := by
  by_cases hshape : size ≠ 4 ∨ addr % 4 ≠ 0
  · exact if_pos hshape
  · rw [causeOf, if_neg hshape, if_neg (by omega), if_neg (by omega), if_neg (by omega)]

theorem causeOf_read_status (h : addr % 256 = 0x04) : causeOf (.read addr 4) s = none := by
  rw [causeOf, if_neg (by omega), if_pos h]

theorem causeOf_read_count (h : addr % 256 = 0x08 ∨ addr % 256 = 0x0C) :
    causeOf (.read addr 4) s = if (s.phase != .uninit) = true then none else some .readNoValue := by
  rw [causeOf, if_neg (by omega), if_neg (by omega), if_pos h]
  cases s.phase <;> rfl

theorem causeOf_read_digest (haligned : addr % 4 = 0) (h : 0x10 ≤ addr % 256 ∧ addr % 256 ≤ 0x20) :
    causeOf (.read addr 4) s = if (s.phase == .done) = true then none else some .readNoValue := by
  rw [causeOf, if_neg (by omega), if_neg (by omega), if_neg (by omega), if_pos h]
  cases s.phase <;> rfl

end Checks

/-! What an access records is the cause the checks give. -/

/-- R106: an access that decodes to no instruction fails one of the first checks, the one that rejects it. -/
theorem causeOf_of_decode_error {a : Access} {r : Reject} (hd : decode a = .error r) (s : State) :
    causeOf a s = some (rejectCause r) := by
  have rejectedAs {r' : Reject} (h : decode a = .error r') : r' = r := Except.error.inj (h.symm.trans hd)
  cases a with
  | write addr size v =>
    by_cases hbad : size ≠ 4 ∨ addr % 256 ≠ 0
    · rw [← rejectedAs (decode_write_badAccess v hbad)]
      exact causeOf_write_badAccess s hbad
    · obtain ⟨rfl, hoff⟩ : size = 4 ∧ addr % 256 = 0 := by omega
      rw [decode_write_cmd hoff, decodeCommand_eq] at hd
      split_ifs at hd with h1 h3 hupdate
      rw [← Except.error.inj hd]
      exact causeOf_illegalCmd s hoff h1 (not_or.mpr ⟨h3, hupdate⟩)
  | read addr size =>
    by_cases hbad : size ≠ 4 ∨ addr % 4 ≠ 0 ∨ addr % 256 = 0 ∨ 0x24 ≤ addr % 256
    · rw [← rejectedAs (decode_read_badAccess hbad)]
      exact causeOf_read_badAccess s hbad
    · obtain rfl : size = 4 := by omega
      obtain ⟨i, hi⟩ := decode_read_isRead (addr := addr) (by omega) (by omega) (by omega)
      exact nomatch hi.symm.trans hd

/-- R105: a read records a fault exactly where it is not allowed. -/
theorem State.readWhen_raised (s : State) (allowed : Bool) (v : Word) :
    (s.readWhen allowed v).raised = if allowed = true then none else some .readNoValue := by
  cases allowed <;> rfl

/-- R60, R106: UPDATE and FINAL record what the check of the phase gives. -/
theorem State.whileAbsorbing_raised {s : State} {command : State → State} (hcommand : (command s).raised = none)
    {addr : Nat} {v : Word} (h : addr % 256 = 0) (hv : v.toNat = 3 ∨ (v.toNat % 256 = 2 ∧ v.toNat < 65536)) :
    (s.whileAbsorbing command).raised = causeOf (.write addr 4 v) s := by
  obtain ⟨huninit, habsorbing, hdone⟩ := causeOf_messageCommand s h hv
  rcases s.whileAbsorbing_cases command with ⟨hp, hw⟩ | ⟨hp, hw⟩ | ⟨hp, hw⟩ <;> rw [hw]
  · exact (huninit hp).symm
  · exact hcommand.trans (habsorbing hp).symm
  · exact (hdone hp).symm

/-- R106: an instruction records what the checks of its access give. -/
theorem exec_raised {a : Access} {i : Instr} {s t : State} (hd : decode a = .ok i) (h : exec i s = .next t) :
    t.raised = causeOf a s := by
  cases a with
  | write addr size v =>
    obtain ⟨rfl, hoff, hi⟩ := (decode_write_ok_iff addr size v i).mp hd
    cases i with
    | init =>
      obtain rfl := Option.some.inj hi
      obtain rfl := Host.Outcome.next.inj h
      exact (causeOf_init s hoff rfl).symm
    | update x =>
      obtain rfl := Option.some.inj hi
      obtain rfl := Host.Outcome.next.inj h
      have hx := x.isLt
      have hv := updateWord_toNat x
      exact State.whileAbsorbing_raised rfl hoff (by omega)
    | final =>
      obtain rfl := Option.some.inj hi
      obtain rfl := Host.Outcome.next.inj h
      exact State.whileAbsorbing_raised rfl hoff (.inl rfl)
    | rdStatus | rdCountLo | rdCountHi | rdDigest0 | rdDigest1 | rdDigest2 | rdDigest3 | rdDigest4 => cases hi
  | read addr size =>
    obtain ⟨rfl, hi, hoff⟩ := (decode_read_ok_iff addr size i).mp hd
    have haligned : addr % 4 = 0 := by have := i.offset_mod_four; omega
    have count (v : Word) (h : addr % 256 = 0x08 ∨ addr % 256 = 0x0C) :
        (s.readWhen (s.phase != .uninit) v).raised = causeOf (.read addr 4) s :=
      (s.readWhen_raised _ v).trans (causeOf_read_count s h).symm
    have digest (v : Word) (h : 0x10 ≤ addr % 256 ∧ addr % 256 ≤ 0x20) :
        (s.readWhen (s.phase == .done) v).raised = causeOf (.read addr 4) s :=
      (s.readWhen_raised _ v).trans (causeOf_read_digest s haligned h).symm
    cases i with
    | init | update _ | final => cases hi
    | rdStatus =>
      obtain rfl := Host.Outcome.next.inj h
      exact (causeOf_read_status s hoff).symm
    | rdCountLo =>
      obtain rfl := Host.Outcome.next.inj h
      exact count _ (.inl hoff)
    | rdCountHi =>
      obtain rfl := Host.Outcome.next.inj h
      exact count _ (.inr hoff)
    | rdDigest0 | rdDigest1 | rdDigest2 | rdDigest3 | rdDigest4 =>
      obtain rfl := Host.Outcome.next.inj h
      exact digest _ (by rw [hoff]; decide)

/-- R106: an access of the window records what its checks give. -/
theorem performAccess_raised {a : Access} {s t : State} (h : performAccess a s = .next t) :
    t.raised = causeOf a s := by
  cases hd : decode a with
  | ok i => exact exec_raised (s := s.accept) hd ((performAccess_ok hd s).symm.trans h)
  | error r =>
    obtain rfl := Host.Outcome.next.inj ((performAccess_error hd s).symm.trans h)
    exact (causeOf_of_decode_error hd s).symm

/-- Settles O16: the step performs the access. -/
theorem firstFailedCheckDecidesTheCause : Obligations.FirstFailedCheckDecidesTheCause := by
  intro s a rest hh hsel
  obtain ⟨t, ht⟩ := performAccess_isNext a { s with host := rest }
  exact ⟨t, (step_selected hh hsel).trans ht, performAccess_raised (s := { s with host := rest }) ht⟩

/-! An access that records a fault only raised it. -/

/-- R99: an instruction that records a fault did nothing but raise it. -/
theorem exec_precise {a : Access} {i : Instr} {s t : State} {c : ErrCause} (hd : decode a = .ok i)
    (h : exec i s = .next t) (hr : t.raised = some c) : t = s.raise c a.errorData := by
  rcases exec_cases i s with
    ⟨-, hu⟩ | ⟨x, -, -, hu⟩ | ⟨-, -, hu⟩ | ⟨-, v, hu⟩ | ⟨hi, hu⟩ | ⟨hi, -, -, hu⟩ | ⟨hi, -, -, hu⟩ <;>
    obtain rfl := Host.Outcome.next.inj (hu.symm.trans h)
  · cases hr
  · cases hr
  · cases hr
  · cases hr
  · rw [Access.errorData_of_read hd hi, ← Option.some.inj hr]
  · rw [Access.errorData_of_command hd hi, ← Option.some.inj hr]
  · rw [Access.errorData_of_command hd hi, ← Option.some.inj hr]

/-- R99: an access of the window that records a fault did nothing but raise it. -/
theorem performAccess_precise {a : Access} {s t : State} {c : ErrCause} (h : performAccess a s = .next t)
    (hr : t.raised = some c) : t = s.accept.raise c a.errorData := by
  cases hd : decode a with
  | ok i => exact exec_precise hd ((performAccess_ok hd s).symm.trans h) hr
  | error r =>
    obtain rfl := Host.Outcome.next.inj ((performAccess_error hd s).symm.trans h)
    rw [← Option.some.inj hr]

/-- Settles O17: the step performs the access. -/
theorem errorsArePrecise : Obligations.ErrorsArePrecise := by
  intro s t a c rest hh hsel h hr
  exact performAccess_precise (s := { s with host := rest }) ((step_selected hh hsel).symm.trans h) hr

/-- R99, R106: a step whose oldest event is an access of the window that fails a check raises the cause of the check and
changes nothing else. -/
theorem step_of_causeOf {s : State} {a : Access} {rest : List HostEvent} {c : ErrCause}
    (hh : s.host = .access a :: rest) (hsel : a.selects s.baseIndex = true) (hc : causeOf a s = some c) :
    step s = .next ((s.taking rest).rejecting c c.code a.errorData) := by
  obtain ⟨t, ht, hr⟩ := firstFailedCheckDecidesTheCause s a rest hh hsel
  exact ht.trans (congrArg _ (errorsArePrecise s t a c rest hh hsel ht (hr.trans hc)))

/-- R30: an access at an offset of the window is in the window. -/
theorem selects_of_offset {a : Access} {k off : Nat} (hoff : off < 256) (ha : a.addr = 256 * k + off) :
    a.selects k = true :=
  (selects_iff a k).mpr (by omega)

/-- Settles O12: the word passes every check but the one of the phase. -/
theorem commandOutsideMessageRaises : Obligations.CommandOutsideMessageRaises := by
  intro s addr v rest hh haddr hv
  have inWindow : (Access.write addr 4 v).selects s.baseIndex = true := selects_of_offset (by decide : 0 < 256) haddr
  obtain ⟨huninit, -, hdone⟩ := causeOf_messageCommand s (addr := addr) (by omega) hv
  exact ⟨fun hp => step_of_causeOf hh inWindow (huninit hp), fun hp => step_of_causeOf hh inWindow (hdone hp)⟩

/-- Settles O13: the word fails the check of its legality, which does not look at the phase. -/
theorem illegalWordRaises : Obligations.IllegalWordRaises := by
  intro s addr v rest hh haddr h1 h3 hupdate
  have inWindow : (Access.write addr 4 v).selects s.baseIndex = true := selects_of_offset (by decide : 0 < 256) haddr
  exact step_of_causeOf hh inWindow (causeOf_illegalCmd s (by omega) h1 (not_or.mpr ⟨h3, hupdate⟩))

/-- Settles O15: the read passes every check but the one of the phase. -/
theorem noValueReadRaises : Obligations.NoValueReadRaises := by
  intro s off rest hh hoff
  refine step_of_causeOf hh (selects_of_offset (by omega : off < 256) rfl) ?_
  rcases hoff with ⟨hcount, hp⟩ | ⟨hdigest, hp⟩
  · rw [causeOf_read_count s (by omega), if_neg (by simp [hp])]
  · rw [causeOf_read_digest s (by omega) (by omega), if_neg (by simp [hp])]

/-- Settles O11, code by code. -/
theorem errorCodes : Obligations.ErrorCodes := ⟨rfl, rfl, rfl, rfl, rfl⟩

end Machine
end Sys2Proof
end

section
/-! PROOFS. ERR is sticky and records every fault, and which events have a next state (R29, R109, R110, R114). -/

namespace Sys2Proof.Machine

/-- The state after an access is the one it answers where it is of the window, and the state before it elsewhere. -/
theorem afterAccess_cases (s : State) (a : Access) :
    (a.selects s.baseIndex = true ∧ performAccess a s = .next (afterAccess s a)) ∨
    (¬ a.selects s.baseIndex = true ∧ afterAccess s a = s) := by
  by_cases hsel : a.selects s.baseIndex = true
  · obtain ⟨t, ht⟩ := performAccess_isNext a s
    exact .inl ⟨hsel, ht.trans (congrArg _ (afterAccess_selected hsel ht).symm)⟩
  · exact .inr ⟨hsel, if_neg hsel⟩

/-- R30, R41: the event of an access answers the state after the access. -/
theorem performEvent_access (s : State) (a : Access) : performEvent (.access a) s = .next (afterAccess s a) := by
  rcases afterAccess_cases s a with ⟨hsel, ht⟩ | ⟨hsel, ht⟩
  · exact (performEvent_selected hsel).trans ht
  · exact (performEvent_unselected hsel).trans (congrArg _ ht.symm)

/-- R41: an access leaves BASE and the events to come alone. -/
theorem afterAccess_frame (s : State) (a : Access) :
    (afterAccess s a).baseIndex = s.baseIndex ∧ (afterAccess s a).host = s.host := by
  rcases afterAccess_cases s a with ⟨-, ht⟩ | ⟨-, ht⟩
  · exact (performAccess_frame ht).2
  · rw [ht]
    exact ⟨rfl, rfl⟩

/-- R99, R109: after an access of the window ERR is 1 exactly when it was before or the access recorded a fault. -/
theorem performAccess_err_iff {a : Access} {s t : State} (h : performAccess a s = .next t) :
    t.err = true ↔ s.err = true ∨ ∃ c, t.raised = some c := by
  cases hr : t.raised with
  | none =>
    obtain ⟨herr, -⟩ := performAccess_errorRecord h hr
    simp [herr]
  | some c =>
    rw [performAccess_precise h hr]
    simp

/-- R22, R109: with ERR = 1 an access of the window leaves ERRCAUSE alone. -/
theorem performAccess_errCause {a : Access} {s t : State} (hs : s.err = true) (h : performAccess a s = .next t) :
    t.errCause = s.errCause := by
  cases hr : t.raised with
  | none => exact (performAccess_errorRecord h hr).2
  | some c =>
    rw [performAccess_precise h hr]
    exact if_pos hs

/-- R109: an access keeps a recorded error, in the window or elsewhere. -/
theorem afterAccess_keeps_error {s : State} (hs : s.err = true) (a : Access) :
    (afterAccess s a).err = true ∧ (afterAccess s a).errCause = s.errCause := by
  rcases afterAccess_cases s a with ⟨-, ht⟩ | ⟨-, ht⟩
  · exact ⟨(performAccess_err_iff ht).mpr (.inl hs), performAccess_errCause hs ht⟩
  · rw [ht]
    exact ⟨hs, rfl⟩

/-- Settles O19: no access clears the record, and the reset event does. -/
theorem noAccessClearsAnError : Obligations.NoAccessClearsAnError :=
  ⟨fun s a rest hh hs =>
    ⟨_, (step_event hh).trans (performEvent_access _ a), afterAccess_keeps_error (s := { s with host := rest }) hs a⟩,
    fun _ _ hh => ⟨_, step_event hh, rfl, rfl⟩⟩

/-- R110: the fault of a run's first access, then those of the rest. -/
theorem faults_issuing_cons (s : State) (a : Access) (as : List Access) :
    faults (a :: as).length (s.issuing (a :: as))
      = (afterAccess s a).raised :: faults as.length ((afterAccess s a).issuing as) := by
  rw [List.length_cons, faults, step_issuing_cons]
  rfl

/-- R110: over a run of accesses of the window ERR becomes 1 exactly when an access records a fault. -/
theorem runAccesses_err_iff (as : List Access) (s : State) (has : ∀ a ∈ as, a.selects s.baseIndex = true) :
    ∃ t, runAccesses as s = .next t
      ∧ (t.err = true ↔ s.err = true ∨ ∃ c, some c ∈ faults as.length (s.issuing as)) := by
  induction as generalizing s with
  | nil => exact ⟨s.issuing [], rfl, by simp [faults]⟩
  | cons a as ih =>
    obtain ⟨hsel, has⟩ := List.forall_mem_cons.mp has
    obtain ⟨u, hu⟩ := performAccess_isNext a s
    have first : afterAccess s a = u := afterAccess_selected hsel hu
    obtain ⟨-, hbase, -⟩ := performAccess_frame hu
    obtain ⟨t, ht, herr⟩ := ih u (hbase.symm ▸ has)
    refine ⟨t, (runAccesses_cons s a as).trans (first.symm ▸ ht), ?_⟩
    rw [herr, performAccess_err_iff hu, faults_issuing_cons, first]
    simp only [List.mem_cons, exists_or, or_assoc, eq_comm]

/-- Settles O20: a run from ERR = 0. -/
theorem errRecordsWhetherAnyAccessFaulted : Obligations.ErrRecordsWhetherAnyAccessFaulted := by
  intro as s hs has
  obtain ⟨t, ht, herr⟩ := runAccesses_err_iff as s has
  exact ⟨t, ht, herr.trans (or_iff_right (hs ▸ nofun))⟩

/-- Settles O47, event by event. -/
theorem idleAndUnspecifiedEvents : Obligations.IdleAndUnspecifiedEvents := by
  refine ⟨fun _ hh => step_idle hh, fun _ _ _ hh => step_event hh, fun _ _ _ hh => step_event hh,
    fun s e rest hh he => ?_⟩
  cases e with
  | access a => exact ⟨_, (step_event hh).trans (performEvent_access _ a), (afterAccess_frame _ a).2⟩
  | reset => exact ⟨_, step_event hh, rfl⟩
  | resetDuring a => cases he
  | interleaved a => cases he

end Sys2Proof.Machine
end

section
/-! PROOFS. Hardware reset (R115), and INIT after whatever came before (R62, R118). -/

namespace Sys2Proof.Machine

/-- R26: in UNINIT no data register has a value. -/
theorem State.views_uninit {s : State} (h : s.phase = .uninit) :
    s.chaining? = none ∧ (∀ i, s.blkByte? i = none) ∧ s.cntLo? = none ∧ s.cntHi? = none := by
  have noValue : ¬ s.hasValue = true := by simp [State.hasValue, h]
  exact ⟨if_neg noValue, fun _ => if_neg noValue, if_neg noValue, if_neg noValue⟩

/-- R23, R90: RD STATUS returns 0 in UNINIT while no error is recorded. -/
theorem exec_rdStatus_cleared {s : State} (hp : s.phase = .uninit) (he : s.err = false) (hc : s.errCause = 0) :
    exec .rdStatus s = .next (s.reading 0x00000000) := by
  have status : s.status = 0x00000000 := by
    rw [State.status, hp, he, hc]
    rfl
  exact congrArg (fun v => Host.Outcome.next (s.reading v)) status

/-- Settles O1: the reset event and State.reset leave UNINIT with no error recorded, and the rest follows from that. -/
theorem hardwareResetClearsControlState : Obligations.HardwareResetClearsControlState := by
  have cleared {s : State} (hp : s.phase = .uninit) (he : s.err = false) (hc : s.errCause = 0) :
      s.phase = .uninit ∧ s.err = false ∧ s.errCause = 0 ∧ s.chaining? = none ∧ (∀ i, s.blkByte? i = none)
        ∧ s.cntLo? = none ∧ s.cntHi? = none ∧ exec .rdStatus s = .next (s.reading 0x00000000) := by
    obtain ⟨hh, hblk, hlo, hhi⟩ := State.views_uninit hp
    exact ⟨hp, he, hc, hh, hblk, hlo, hhi, exec_rdStatus_cleared hp he hc⟩
  exact ⟨fun _ _ hh => ⟨_, step_event hh, cleared rfl rfl rfl⟩, cleared rfl rfl rfl⟩

/-- Settles O6: INIT writes all of the message state from constants and none of the error record. -/
theorem initForgetsEarlierMessages : Obligations.InitForgetsEarlierMessages := by
  intro s₁ s₂ t₁ t₂ h₁ h₂
  obtain rfl : s₁.startMessage.respond none = t₁ := Host.Outcome.next.inj h₁
  obtain rfl : s₂.startMessage.respond none = t₂ := Host.Outcome.next.inj h₂
  exact ⟨⟨rfl, rfl, rfl, rfl, rfl⟩, rfl, rfl⟩

end Sys2Proof.Machine
end

section
/-! PROOFS. A read right after a command (R41, R120). -/

namespace Sys2Proof.Machine

/-! No instruction reads `pc` (R27): another `pc` commutes with it. -/

/-- The state with another count of accesses. -/
def State.withPc (s : State) (n : Nat) : State := { s with pc := n }

theorem State.accept_eq_withPc (s : State) : s.accept = s.withPc (s.pc + 1) := rfl

theorem State.whileAbsorbing_withPc {s : State} {n : Nat} {command : State → State}
    (h : command (s.withPc n) = (command s).withPc n) :
    (s.withPc n).whileAbsorbing command = (s.whileAbsorbing command).withPc n := by
  rw [State.whileAbsorbing, State.whileAbsorbing, show (s.withPc n).phase = s.phase from rfl]
  cases s.phase with
  | uninit => rfl
  | absorbing => exact h
  | done => rfl

theorem State.readWhen_withPc (s : State) (n : Nat) (allowed : Bool) (v : Word) :
    (s.withPc n).readWhen allowed v = (s.readWhen allowed v).withPc n := by
  cases allowed <;> rfl

theorem State.absorbByte_withPc (s : State) (n : Nat) (x : Byte) :
    (s.withPc n).absorbByte x = (s.absorbByte x).withPc n := by
  rw [State.absorbByte, State.absorbByte, apply_ite (State.withPc · n)]
  rfl

theorem State.makeRoom_withPc (s : State) (n : Nat) : (s.withPc n).makeRoom = s.makeRoom.withPc n := by
  rw [State.makeRoom, State.makeRoom, apply_ite (State.withPc · n)]
  rfl

theorem State.finishMessage_withPc (s : State) (n : Nat) :
    (s.withPc n).finishMessage = s.finishMessage.withPc n :=
  congrArg (fun u : State => u.writeLength.compressBlk.setPhase .done) (s.padBlock.makeRoom_withPc n)

theorem exec_withPc {i : Instr} {s t : State} (n : Nat) (h : exec i s = .next t) :
    exec i (s.withPc n) = .next (t.withPc n) := by
  cases i <;> obtain rfl := Host.Outcome.next.inj h <;> refine congrArg Host.Outcome.next ?_
  case init => rfl
  case update x => exact State.whileAbsorbing_withPc (congrArg (·.respond none) (s.absorbByte_withPc n x))
  case final => exact State.whileAbsorbing_withPc (congrArg (·.respond none) (s.finishMessage_withPc n))
  case rdStatus => rfl
  all_goals exact s.readWhen_withPc n _ _

/-- R27: taking the access commutes with the instruction it carries. -/
theorem exec_accept {i : Instr} {s t : State} (h : exec i s = .next t) : exec i s.accept = .next t.accept := by
  obtain ⟨hpc, -, -⟩ := exec_frame h
  rw [State.accept_eq_withPc, State.accept_eq_withPc, hpc]
  exact exec_withPc (s.pc + 1) h

/-! What the host gets back for two instructions. -/

/-- R41: issuing an instruction gives its meaning, and advances `pc`. -/
theorem State.perform_of_exec {s t : State} {i : Instr} (h : exec i s = .next t) : s.perform i = t.accept :=
  State.perform_eq (exec_accept h)

/-- R41, R120: the second instruction runs in the state the first leaves. -/
theorem State.readAfter_eq {s t u : State} {i r : Instr} (hi : exec i s = .next t) (hr : exec r t = .next u) :
    s.readAfter i r = [t.rdata, u.rdata] := by
  have both : s.readAfter i r = [(s.perform i).rdata, ((s.perform i).perform r).rdata] := by
    rw [← returnedBy_nil ((s.perform i).perform r)]
    exact (returnedBy_encode_cons i [r] s).trans (congrArg _ (returnedBy_encode_cons r [] _))
  rw [both, State.perform_of_exec hi, State.perform_of_exec (exec_accept hr)]
  rfl

/-- R53: the reads are the instructions without a command word. -/
theorem Instr.isRead_of_commandWord {i : Instr} (h : commandWord i = none) : i.isRead := by
  cases i with
  | init | update x | final => cases h
  | rdStatus | rdCountLo | rdCountHi | rdDigest0 | rdDigest1 | rdDigest2 | rdDigest3 | rdDigest4 => simp [Instr.isRead]

/-- R12: a command returns nothing, in every phase. -/
theorem exec_command_rdata {i : Instr} {s t : State} (hi : ¬ i.isRead) (h : exec i s = .next t) : t.rdata = none := by
  have answer {u : State} (hu : exec i s = .next u) : t = u := Host.Outcome.next.inj (h.symm.trans hu)
  have command : commandWord i ≠ none := fun hnone => hi (Instr.isRead_of_commandWord hnone)
  rcases exec_cases i s with
    ⟨-, hu⟩ | ⟨x, -, -, hu⟩ | ⟨-, -, hu⟩ | ⟨hread, -⟩ | ⟨hread, -⟩ | ⟨-, -, -, hu⟩ | ⟨-, -, -, hu⟩
  · exact congrArg State.rdata (answer hu)
  · exact congrArg State.rdata (answer hu)
  · exact congrArg State.rdata (answer hu)
  · exact absurd hread command
  · exact absurd hread command
  · exact congrArg State.rdata (answer hu)
  · exact congrArg State.rdata (answer hu)

/-- R120: a read that is performed right after a command that returns nothing. -/
theorem State.readAfter_reading {s t : State} {i r : Instr} {v : Word} (hi : exec i s = .next t)
    (hnone : t.rdata = none) (hr : exec r t = .next (t.reading v)) : s.readAfter i r = [none, some v] := by
  rw [State.readAfter_eq hi hr, hnone]
  rfl

/-! The values. -/

/-- R23: the word STATUS shows, by PHASE's code and the error record. -/
theorem State.status_eq_statusWord {s t : State} (herr : t.err = s.err) (hcause : t.errCause = s.errCause) :
    t.status = s.statusWord t.phase.code.toNat := by
  have errBit : 4 * s.err.toNat = if s.err = true then 4 else 0 := by cases s.err <;> rfl
  rw [← BitVec.setWidth_eq t.status, ← BitVec.ofNat_toNat, t.status_toNat, State.statusWord, herr, hcause, errBit]

/-- R90 to R92: STATUS and the counts right after an instruction that performs a command and leaves an open or finished
message. -/
theorem State.readAfter_status_counts {s t : State} {i : Instr} {p : Phase} (hi : exec i s = .next t)
    (hnone : t.rdata = none) (hraised : t.raised = none) (hphase : t.phase = p) (hp : p ≠ .uninit) :
    s.readAfter i .rdStatus = [none, some (s.statusWord p.code.toNat)]
      ∧ s.readAfter i .rdCountLo = [none, some t.cntLo] ∧ s.readAfter i .rdCountHi = [none, some t.cntHi] := by
  subst hphase
  obtain ⟨herr, hcause⟩ := exec_errorRecord hi hraised
  obtain ⟨-, -, counts⟩ := countReads
  obtain ⟨hlo, hhi⟩ := (counts t).1 hp
  rw [← State.status_eq_statusWord herr hcause]
  exact ⟨State.readAfter_reading hi hnone rfl, State.readAfter_reading hi hnone hlo,
    State.readAfter_reading hi hnone hhi⟩

/-- Settles O42: a command's answer, and the read's in the state it leaves; then the three commands' states. -/
theorem readsSeeTheCommandBeforeThem : Obligations.ReadsSeeTheCommandBeforeThem := by
  refine ⟨fun s i r hi _ => ?_, fun s => ?_, fun s hp => ⟨fun x => ?_, ?_⟩⟩
  · obtain ⟨t, ht⟩ := exec_isNext i s
    obtain ⟨u, hu⟩ := exec_isNext r t
    exact ⟨t, u, ht, hu, exec_command_rdata hi ht ▸ State.readAfter_eq ht hu⟩
  · exact State.readAfter_status_counts (p := .absorbing) (t := s.startMessage.respond none) rfl rfl rfl rfl nofun
  · have reads := State.readAfter_status_counts (exec_update_absorbing hp x) rfl rfl ((s.absorbByte_phase x).trans hp)
      nofun
    have hhi : (s.absorbByte x).cntHi = if s.cntLo.toNat = 2 ^ 32 - 1 then s.cntHi + 1 else s.cntHi :=
      (s.absorbByte_cntHi x).trans (if_congr (add_one_eq_zero_iff s.cntLo) rfl rfl)
    rwa [State.respond_cntLo, State.respond_cntHi, State.absorbByte_cntLo, hhi] at reads
  · have hfinal := exec_final_absorbing hp
    obtain ⟨hstatus, hlo, hhi⟩ := State.readAfter_status_counts hfinal rfl rfl s.finishMessage_phase nofun
    rw [State.respond_cntLo, State.finishMessage_cntLo] at hlo
    rw [State.respond_cntHi, State.finishMessage_cntHi] at hhi
    obtain ⟨-, -, -, -, -, digests⟩ := digestReads
    obtain ⟨h0, h1, h2, h3, h4⟩ := (digests (s.finishMessage.respond none)).1 s.finishMessage_phase
    exact ⟨hstatus, hlo, hhi, _, hfinal, State.readAfter_reading hfinal rfl h0, State.readAfter_reading hfinal rfl h1,
      State.readAfter_reading hfinal rfl h2, State.readAfter_reading hfinal rfl h3,
      State.readAfter_reading hfinal rfl h4⟩

end Sys2Proof.Machine
end
